-- ==== Sys2Proof/Word.lean ====
section
/-!
DEFINITION. The two word types of the core: the one-bit cell of program memory (10_state.md R27) and the 8-bit pattern
`Bits8` of a register, a data cell and an image byte (00_scope.md R13; 10_state.md R20, R30).
-/

namespace Sys2Proof

/-- One bit: a cell of program memory, or one bit of the image (10_state.md R27). -/
abbrev Bit := BitVec 1

/-- An 8-bit pattern: the value of a register, of a data cell or of an image byte (00_scope.md R13). -/
abbrev Bits8 := BitVec 8

end Sys2Proof
end

