-- ==== Sys2Proof/Machine/Flags.lean ====
section
/-!
DEFINITION. Integer views and wrap-around arithmetic (00_scope.md R13; 41_arithmetic.md R110). The core has no status flags, condition
codes or predicates (10_state.md R33): no operation here computes one, and overflow records nothing.
-/

namespace Sys2Proof.Machine

/-- `u8(b)`: the unsigned value, 0..255 (R13). -/
def u8 (b : Bits8) : Nat := b.toNat

/-- `int8(b)`: the two's-complement value, -128..127 (R13, PRESUMED by G1: log 22). -/
def int8 (b : Bits8) : Int := if u8 b < 128 then (u8 b : Int) else (u8 b : Int) - 256

/-- `bits8(n)`: the pattern whose unsigned value is `n mod 256`, the mathematical modulo (R13). -/
def bits8 (n : Int) : Bits8 := BitVec.ofNat 8 (n % 256).toNat

/-- `wrap8(n)`: wrap-around to the 8-bit two's-complement range (R13). -/
def wrap8 (n : Int) : Int := int8 (bits8 n)

/-- `add8(s, d)` (R110). -/
def add8 (s d : Bits8) : Bits8 := bits8 ((u8 s : Int) + (u8 d : Int))

/-- `sub8(s, d)` (R110). -/
def sub8 (s d : Bits8) : Bits8 := bits8 ((u8 s : Int) - (u8 d : Int))

end Sys2Proof.Machine
end

