-- ==== Sys2Proof/Config.lean ====
section
/-!
DEFINITION. The implementation parameters of 00_scope.md R10 and R11: the fixed ones as constants, `PROG_SIZE` and `DATA_SIZE`
as a record of parameters with the reference values.
-/

namespace Sys2Proof.Config

/-- `REG_COUNT` (R10, fixed). -/
def regCount : Nat := 4

/-- `REG_WIDTH`, which is also `DATA_CELL_WIDTH` (R10, D1). -/
def regWidth : Nat := 8

/-- `OPCODE_WIDTH` (R10, fixed). -/
def opcodeWidth : Nat := 4

/-- `OPCODE_COUNT` (R10, fixed): the legal opcodes are 0 to 6. -/
def opcodeCount : Nat := 7

/-- `REG_FIELD_WIDTH` (R10, fixed). -/
def regFieldWidth : Nat := 2

/-- `ADDR_FIELD_WIDTH` (R10, fixed). -/
def addrFieldWidth : Nat := 4

/-- `BITIO_MAX_WIDTH` (R10, fixed). -/
def bitIoMaxWidth : Nat := 32

/-- The two parameters the spec leaves open, fixed at construction and never resized (R10, R11, D21). -/
structure Params where
  /-- `PROG_SIZE`: cells of one bit. -/
  progSize : Nat
  /-- `DATA_SIZE`: cells of 8 bits. -/
  dataSize : Nat
  deriving DecidableEq, Repr

/-- The reference behaviour: 256 cells each (R10). -/
def Params.reference : Params := { progSize := 256, dataSize := 256 }

/-- What R11 requires of a choice of parameters; `PROG_SIZE ≥ 0` holds of every `Nat`. -/
abbrev Params.wf (p : Params) : Prop := 1 ≤ p.dataSize

/-- `PC_WIDTH`: the number of bits that hold 0..`PROG_SIZE` (R10, derived). -/
def pcWidth (progSize : Nat) : Nat := progSize.log2 + 1

end Sys2Proof.Config
end

