-- ==== Sys2Proof/Machine/BitIO.lean ====
section
/-!
DEFINITION. The bit packer and unpacker (30_encoding.md R60 to R62): BitWriter and BitReader, each with its sub-byte
accumulator (10_state.md R37), and the bit order both share, most significant bit first (00_scope.md R12).
-/

namespace Sys2Proof

/-- The `w` low-order bits of `v`, most significant first (R60). -/
def fieldBits (v : Nat) : Nat → List Bit
  | 0 => []
  | w + 1 => BitVec.ofNat 1 (v / 2 ^ w) :: fieldBits v w

/-- The number that bits read most significant first spell, after `acc` (R62). -/
def bitsValueFrom (acc : Nat) (bits : List Bit) : Nat :=
  bits.foldl (fun v b => 2 * v + b.toNat) acc

/-- The number that bits read most significant first spell (R62, R66). -/
def bitsValue (bits : List Bit) : Nat := bitsValueFrom 0 bits

/-- The bits of an image byte in stream order: bit 7 first (00_scope.md R12; 20_memory.md R41). -/
def byteBits (b : Bits8) : List Bit := fieldBits b.toNat 8

/-- The byte whose bits in stream order are the given eight (R60). -/
def byteOfBits (bits : List Bit) : Bits8 := BitVec.ofNat 8 (bitsValue bits)

/-- The program bits a byte stream stands for, in stream order (20_memory.md R41). -/
def imageBits (image : List Bits8) : List Bit := image.flatMap byteBits

/-- The packer: the bytes emitted so far, and the accumulator of fewer than 8 bits, earliest bit first (R60). -/
structure BitWriter where
  /-- Bytes already emitted, in order. -/
  emitted : List Bits8
  /-- Bits gathered for the next byte. -/
  acc : List Bit
  deriving DecidableEq, Repr

/-- A packer that has written nothing. -/
def BitWriter.empty : BitWriter := { emitted := [], acc := [] }

/-- Why a `write`, or the encoding of an instruction, fails. -/
inductive WriteError where
  /-- `EncodingError`: the value needs more than `width` bits (R60), or is an operand below 0 (R65). -/
  | encoding (value : Int) (width : Nat)
  /-- `OperandCountError` of the encoder (R65). -/
  | operandCount (expected given : Nat)
  /-- A negative value given to `write`, a caller error: refused by name (U12; DESIGN CHOICE, log 14). Safe. -/
  | negative (value : Int)
  /-- A width outside 1..32, a caller error to which the spec gives no behaviour: refused by name (U11; DESIGN CHOICE, log 14). Safe. -/
  | badWidth (width : Nat)
  deriving DecidableEq, Repr

/-- Why a `read` fails. -/
inductive ReadError where
  /-- `TruncatedStreamError`: fewer than `need` bits remain (R62). -/
  | truncated (need available : Nat)
  /-- A width outside 1..32, a caller error to which the spec gives no behaviour: refused by name (U11; DESIGN CHOICE, log 14). Safe. -/
  | badWidth (width : Nat)
  deriving DecidableEq, Repr

/-- A width the primitives accept: 1..`BITIO_MAX_WIDTH`. -/
def widthOk (w : Nat) : Bool := decide (1 ≤ w) && decide (w ≤ Config.bitIoMaxWidth)

/-- One bit into the accumulator; the eighth emits the byte (R60). -/
def BitWriter.pushBit (wr : BitWriter) (b : Bit) : BitWriter :=
  if wr.acc.length + 1 = 8 then { emitted := wr.emitted ++ [byteOfBits (wr.acc ++ [b])], acc := [] }
  else { wr with acc := wr.acc ++ [b] }

/-- Bits into the accumulator, first bit first. -/
def BitWriter.pushBits (wr : BitWriter) (bits : List Bit) : BitWriter := bits.foldl BitWriter.pushBit wr

/-- `BitWriter.write(value, widthBits)` (R60): nothing is emitted where it fails. -/
def BitWriter.write (wr : BitWriter) (value : Int) (w : Nat) : Except WriteError BitWriter :=
  if widthOk w = false then .error (.badWidth w)
  else if value < 0 then .error (.negative value)
  else if 2 ^ w ≤ value.toNat then .error (.encoding value w)
  else .ok (wr.pushBits (fieldBits value.toNat w))

/-- `BitWriter.flush()` (R61): a partial byte is padded on the right with zeros and emitted. -/
def BitWriter.flush (wr : BitWriter) : BitWriter :=
  if wr.acc.length = 0 then wr
  else { emitted := wr.emitted ++ [byteOfBits (wr.acc ++ List.replicate (8 - wr.acc.length) 0)], acc := [] }

/-- Every bit written so far, in order: what the stream holds before a flush. -/
def BitWriter.bits (wr : BitWriter) : List Bit := imageBits wr.emitted ++ wr.acc

/-- The unpacker: the bytes not yet taken from the source, and the bits of the byte last taken that remain (R62). -/
structure BitReader where
  /-- Bits of the current byte still to be read. -/
  buffer : List Bit
  /-- Bytes of the source still to be taken. -/
  source : List Bits8
  deriving DecidableEq, Repr

/-- A reader at the start of a byte stream. -/
def BitReader.ofBytes (bytes : List Bits8) : BitReader := { buffer := [], source := bytes }

/-- `bits_remaining` (R62). -/
def BitReader.remaining (rd : BitReader) : Nat := rd.buffer.length + 8 * rd.source.length

/-- The bits still to be read, in order. -/
def BitReader.bits (rd : BitReader) : List Bit := rd.buffer ++ imageBits rd.source

/-- One bit, refilling the byte-at-a-time buffer where it is empty; `none` at the end of the source (R62). -/
def BitReader.nextBit (rd : BitReader) : Option (Bit × BitReader) :=
  match rd.buffer with
  | b :: rest => some (b, { rd with buffer := rest })
  | [] =>
    match rd.source with
    | [] => none
    | byte :: src =>
      match byteBits byte with
      | [] => none
      | b :: rest => some (b, { buffer := rest, source := src })

/-- `w` bits gathered into `v`; it stops early only at the end of the source. -/
def BitReader.gather (v : Nat) (rd : BitReader) : Nat → Nat × BitReader
  | 0 => (v, rd)
  | w + 1 =>
    match rd.nextBit with
    | none => (v, rd)
    | some (b, rd') => BitReader.gather (2 * v + b.toNat) rd' w

/-- `BitReader.read(widthBits)` (R62): a failing read leaves the reader where it was, since it gives no new one. -/
def BitReader.read (rd : BitReader) (w : Nat) : Except ReadError (Nat × BitReader) :=
  if widthOk w = false then .error (.badWidth w)
  else if rd.remaining < w then .error (.truncated w rd.remaining)
  else .ok (rd.gather 0 w)

/-- Reads of the given widths, one after another; the first that fails ends them. -/
def BitReader.readFields (rd : BitReader) : List Nat → Except ReadError (List Nat × BitReader)
  | [] => .ok ([], rd)
  | w :: ws =>
    match rd.read w with
    | .error e => .error e
    | .ok (v, rd') =>
      match BitReader.readFields rd' ws with
      | .error e => .error e
      | .ok (vs, rd'') => .ok (v :: vs, rd'')

end Sys2Proof
end

