-- ==== Sys2Proof/Syntax.lean ====
section
/-!
DEFINITION. The instructions of the opcode table (30_encoding.md R70), one constructor per row. Operands are the unsigned field
values, zero-extended (R63), so plain numbers: what fits a field is said in WellFormed.lean, and what a register file or a data
memory has is checked at dispatch (R72).
-/

namespace Sys2Proof

/-- A decoded instruction without its trailing offset (10_state.md R39). -/
inductive Instr where
  /-- MOVER, opcode 0 (R100): register `r` written, data address `a` read. -/
  | mover (r a : Nat)
  /-- MOVEM, opcode 1 (R101): register `r` read, data address `a` written. -/
  | movem (r a : Nat)
  /-- ADD, opcode 2 (R111): register `r0` written, register `r1` and data address `a` read. -/
  | add (r0 r1 a : Nat)
  /-- SUB, opcode 3 (R112): register `r0` written, register `r1` and data address `a` read. -/
  | sub (r0 r1 a : Nat)
  /-- HALT, opcode 4 (R130). -/
  | halt
  /-- IN, opcode 5 (R140): register `r` written from the host's answer. -/
  | inp (r : Nat)
  /-- OUT, opcode 6 (R142): register `r` emitted. -/
  | out (r : Nat)
  deriving DecidableEq, Repr

end Sys2Proof
end

