-- ==== Sys2Proof/WellFormed.lean ====
section
/-!
DEFINITION. Well-formed instructions: every operand fits its field (30_encoding.md R63, R65): a register reference is below
2^2, an address below 2^4. Every such value is legal (R72).
-/

namespace Sys2Proof

/-- A register reference fits its 2-bit field. -/
def regFits (r : Nat) : Bool := decide (r < 2 ^ Config.regFieldWidth)

/-- An address fits its 4-bit field. -/
def addrFits (a : Nat) : Bool := decide (a < 2 ^ Config.addrFieldWidth)

/-- Every operand fits its field. -/
def Instr.wf : Instr → Bool
  | .mover r a => regFits r && addrFits a
  | .movem r a => regFits r && addrFits a
  | .add r0 r1 a => regFits r0 && regFits r1 && addrFits a
  | .sub r0 r1 a => regFits r0 && regFits r1 && addrFits a
  | .halt => true
  | .inp r => regFits r
  | .out r => regFits r

end Sys2Proof
end

