-- ==== Sys2Proof/Decode.lean ====
section
/-!
DEFINITION. The InstructionCodec (30_encoding.md R63 to R74): the opcode table, the decoder over a bit-addressed program
memory, and after it the encoder. The decoder is total: it answers an instruction with its trailing offset, or one of two
errors by name (R68).
-/

namespace Sys2Proof

/-- The kind of an operand field (R63). -/
inductive OperandKind where
  /-- A register reference. -/
  | reg
  /-- An address/immediate, always a data address (C6). -/
  | addr
  deriving DecidableEq, Repr

/-- One row of the opcode table (R70). -/
structure OpcodeRow where
  mnemonic : String
  opcode : Nat
  operands : List (OperandKind × Nat)
  deriving DecidableEq, Repr

/-- The field `reg:2` (R70). -/
def regField : OperandKind × Nat := (.reg, Config.regFieldWidth)

/-- The field `addr:4` (R70). -/
def addrField : OperandKind × Nat := (.addr, Config.addrFieldWidth)

/-- MOVER's row. -/
def moverRow : OpcodeRow := { mnemonic := "MOVER", opcode := 0, operands := [regField, addrField] }

/-- MOVEM's row. -/
def movemRow : OpcodeRow := { mnemonic := "MOVEM", opcode := 1, operands := [regField, addrField] }

/-- ADD's row. -/
def addRow : OpcodeRow := { mnemonic := "ADD", opcode := 2, operands := [regField, regField, addrField] }

/-- SUB's row. -/
def subRow : OpcodeRow := { mnemonic := "SUB", opcode := 3, operands := [regField, regField, addrField] }

/-- HALT's row. -/
def haltRow : OpcodeRow := { mnemonic := "HALT", opcode := 4, operands := [] }

/-- IN's row. -/
def inRow : OpcodeRow := { mnemonic := "IN", opcode := 5, operands := [regField] }

/-- OUT's row. -/
def outRow : OpcodeRow := { mnemonic := "OUT", opcode := 6, operands := [regField] }

/-- The single opcode table of R70: mnemonic, numeric code, ordered operand kinds and widths. -/
def opcodeTable : List OpcodeRow := [moverRow, movemRow, addRow, subRow, haltRow, inRow, outRow]

/-- The row of an opcode; none for 7 to 15 (R71). -/
def rowOfOpcode (op : Nat) : Option OpcodeRow := opcodeTable.find? (fun row => row.opcode == op)

/-- `Len(op)` (R64); 0 for an illegal opcode, to which the spec gives no length and
whose length nothing reads. -/
def lenOf : Nat → Nat
  | 0 => 10
  | 1 => 10
  | 2 => 12
  | 3 => 12
  | 4 => 4
  | 5 => 6
  | 6 => 6
  | _ => 0

/-- `Field(p, w)` (R66): `w` consecutive program bits from bit offset `p`, most significant first. -/
def field (P : Nat → Bit) (p : Nat) : Nat → Nat
  | 0 => 0
  | w + 1 => 2 * field P p w + (P (p + w)).toNat

/-- The two ways decoding fails (R68). -/
inductive DecodeError where
  /-- `TruncatedStreamError`: fewer than `need` bits remain before `eof` (R67, R69). -/
  | truncated (need available : Nat)
  /-- `UnknownOpcodeError`: an opcode in 7..15 (R67, R71). -/
  | unknownOpcode (opcode : Nat)
  deriving DecidableEq, Repr

/-- The instruction whose opcode field at `pc` holds `op`, its operand fields read in table order (R67); none for an
illegal opcode. -/
def decodeFields (P : Nat → Bit) (pc : Nat) : Nat → Option Instr
  | 0 => some (.mover (field P (pc + 4) 2) (field P (pc + 6) 4))
  | 1 => some (.movem (field P (pc + 4) 2) (field P (pc + 6) 4))
  | 2 => some (.add (field P (pc + 4) 2) (field P (pc + 6) 2) (field P (pc + 8) 4))
  | 3 => some (.sub (field P (pc + 4) 2) (field P (pc + 6) 2) (field P (pc + 8) 4))
  | 4 => some .halt
  | 5 => some (.inp (field P (pc + 4) 2))
  | 6 => some (.out (field P (pc + 4) 2))
  | _ => none

/-- `Decode(pc)` over program bits `P` and end marker `eof` (R67): the opcode first, then the length check, then the fields.
Opcode beats truncation of the operands (R157). -/
def decode (P : Nat → Bit) (eof pc : Nat) : Except DecodeError (Instr × Nat) :=
  if eof - pc < 4 then .error (.truncated 4 (eof - pc))
  else
    match decodeFields P pc (field P pc 4) with
    | none => .error (.unknownOpcode (field P pc 4))
    | some i =>
      if eof - pc < lenOf (field P pc 4) then .error (.truncated (lenOf (field P pc 4)) (eof - pc))
      else .ok (i, pc + lenOf (field P pc 4))

/-- The opcode of an instruction (R70). -/
def Instr.opcode : Instr → Nat
  | .mover _ _ => 0
  | .movem _ _ => 1
  | .add _ _ _ => 2
  | .sub _ _ _ => 3
  | .halt => 4
  | .inp _ => 5
  | .out _ => 6

/-- The operand values of an instruction in table order (R70). -/
def Instr.operands : Instr → List Nat
  | .mover r a => [r, a]
  | .movem r a => [r, a]
  | .add r0 r1 a => [r0, r1, a]
  | .sub r0 r1 a => [r0, r1, a]
  | .halt => []
  | .inp r => [r]
  | .out r => [r]

/-- The instruction of an opcode and its operand values; none where the count or the opcode is wrong. -/
def Instr.ofOperands : Nat → List Nat → Option Instr
  | 0, [r, a] => some (.mover r a)
  | 1, [r, a] => some (.movem r a)
  | 2, [r0, r1, a] => some (.add r0 r1 a)
  | 3, [r0, r1, a] => some (.sub r0 r1 a)
  | 4, [] => some .halt
  | 5, [r] => some (.inp r)
  | 6, [r] => some (.out r)
  | _, _ => none

/-- The length of an instruction in bits (R64). -/
def Instr.length (i : Instr) : Nat := lenOf i.opcode

/-- The operand widths the table gives an opcode (R70). -/
def operandWidths (op : Nat) : List Nat :=
  match rowOfOpcode op with
  | some row => row.operands.map Prod.snd
  | none => []

/-- The operand fields of an instruction: value and width, in table order (R65). -/
def Instr.operandFields (i : Instr) : List (Nat × Nat) := i.operands.zip (operandWidths i.opcode)

/-- All fields of an instruction: the 4-bit opcode, then the operand fields (R64). -/
def Instr.fields (i : Instr) : List (Nat × Nat) := (i.opcode, Config.opcodeWidth) :: i.operandFields

/-- The row of an instruction (R70). -/
def Instr.row : Instr → OpcodeRow
  | .mover _ _ => moverRow
  | .movem _ _ => movemRow
  | .add _ _ _ => addRow
  | .sub _ _ _ => subRow
  | .halt => haltRow
  | .inp _ => inRow
  | .out _ => outRow

/-- Every value fits its width, or the first that does not, negative or too large, as `EncodingError` (R65). -/
def checkFields : List (Int × Nat) → Except WriteError Unit
  | [] => .ok ()
  | (v, w) :: rest => if v < 0 ∨ ((2 ^ w : Nat) : Int) ≤ v then .error (.encoding v w) else checkFields rest

/-- The widths of a row's operand fields. -/
def OpcodeRow.widths (row : OpcodeRow) : List Nat := row.operands.map Prod.snd

/-- The checks of `Encode` (R65), all made before any bit is written: the number of operands, then every value in order. What
passes is the fields to write: the opcode, then the operands. -/
def encodeFields (row : OpcodeRow) (operands : List Int) : Except WriteError (List (Nat × Nat)) :=
  if operands.length ≠ row.operands.length then .error (.operandCount row.operands.length operands.length)
  else
    match checkFields (operands.zip row.widths) with
    | .error e => .error e
    | .ok _ => .ok ((row.opcode, Config.opcodeWidth) :: (operands.map Int.toNat).zip row.widths)

/-- The bits of fields packed with no padding (R64). -/
def fieldsBits (fs : List (Nat × Nat)) : List Bit := fs.flatMap (fun f => fieldBits f.1 f.2)

/-- `Encode(op, operands)` (R65), the operands any integers: the bits of the fields in order. -/
def encodeOperands (row : OpcodeRow) (operands : List Int) : Except WriteError (List Bit) :=
  match encodeFields row operands with
  | .error e => .error e
  | .ok fs => .ok (fieldsBits fs)

/-- The operand values of an instruction as the encoder takes them. -/
def Instr.encoderOperands (i : Instr) : List Int := i.operands.map Int.ofNat

/-- `Encode` of an instruction (R65). -/
def encode (i : Instr) : Except WriteError (List Bit) := encodeOperands i.row i.encoderOperands

/-- Fields through a BitWriter, in order (R65). -/
def BitWriter.writeFields (wr : BitWriter) : List (Nat × Nat) → Except WriteError BitWriter
  | [] => .ok wr
  | (v, w) :: rest =>
    match wr.write v w with
    | .error e => .error e
    | .ok wr' => BitWriter.writeFields wr' rest

/-- `Encode` onto a BitWriter (R65): the codec's checks first, then the writes, so that a failing instruction emits no bit. -/
def BitWriter.writeOperands (wr : BitWriter) (row : OpcodeRow) (operands : List Int) : Except WriteError BitWriter :=
  match encodeFields row operands with
  | .error e => .error e
  | .ok fs => wr.writeFields fs

/-- `Encode` of an instruction onto a BitWriter (R65). -/
def BitWriter.writeInstr (wr : BitWriter) (i : Instr) : Except WriteError BitWriter := wr.writeOperands i.row i.encoderOperands

/-- Program bits given as a list from offset `start` on; 0 elsewhere. -/
def bitsAt (start : Nat) (bits : List Bit) (p : Nat) : Bit :=
  if p < start then 0 else bits.getD (p - start) 0

/-- The instruction lengths whose word spec/opcode_table.json may give in `nbits` bits: exactly, or rounded up to whole
bytes (DEDUCED, log 16). -/
def tableLengths (nbits : Nat) : List Nat :=
  [4, 6, 10, 12].filter (fun len => len == nbits || 8 * ((len + 7) / 8) == nbits)

/-- How many bits of the stream the table word `w` is: the length whose opcode field gives that length (R64, R73); `nbits`
where none does, and the decoder then refuses it or reads its first bits. -/
def tableLength (nbits w : Nat) : Nat :=
  match (tableLengths nbits).find? (fun len => decide (w < 2 ^ len) && lenOf (w / 2 ^ (len - 4)) == len) with
  | some len => len
  | none => nbits

/-- The bits of a table word in stream order: bit `L-1` of `W` is fetched first (R64). -/
def tableBits (nbits w : Nat) : List Bit := fieldBits w (tableLength nbits w)

/-- What the decoder reads from a stream that holds exactly the table word (the host's question; log 16). -/
def decodeTableWord (nbits w : Nat) : Option Instr :=
  match decode (bitsAt 0 (tableBits nbits w)) (tableLength nbits w) 0 with
  | .ok (i, _) => some i
  | .error _ => none

end Sys2Proof
end

