-- ==== Sys2Proof/Machine/State.lean ====
section
/-!
DEFINITION. The state of the core as plain data (10_state.md R38), the outcomes of a step that are no next state, and the
machine right after reset (70_reset_and_hazards.md R184).
-/

namespace Sys2Proof.Machine

/-- What a general register holds: nothing written since instantiation, or an 8-bit pattern (R20). `unwritten` is the spec's
own register content (R20, R184), no stand-in for a missing reset value (the spec's decision D2; log 1). -/
inductive Slot where
  /-- The marker `Unwritten` (R20). -/
  | unwritten
  /-- A written value. -/
  | val (b : Bits8)
  deriving DecidableEq, Repr

/-- Memory contents: address and value pairs in canonical form (Ops.lean, `Memory.wf`); an unlisted address reads as 0. A
`Memory 8` is a list of `Host.Cell`. -/
abbrev Memory (w : Nat) := List (Nat × BitVec w)

/-- An AddressSpace: fixed-size linear memory of `w`-bit cells (R27, R30; 20_memory.md R40, R49). -/
structure AddressSpace (w : Nat) where
  /-- The number of cells, fixed at construction (00_scope.md R11). -/
  size : Nat
  /-- The cells that are not 0. -/
  cells : Memory w
  deriving DecidableEq, Repr

/-- The engine status (R31). -/
inductive Status where
  /-- pc = 0, nothing executed. -/
  | ready
  /-- Between instructions of a run. -/
  | running
  /-- Terminal, reached by HALT or by the end check. -/
  | halted
  /-- Terminal, reached by a decode or dispatch fault. -/
  | faulted
  deriving DecidableEq, Repr

/-- The complete error taxonomy (60_exceptions.md R150). -/
inductive ErrorKind where
  /-- Decode; BitReader.read. -/
  | truncatedStream
  /-- Decode of an opcode in 7..15. -/
  | unknownOpcode
  /-- Dispatch: register index outside the register count. -/
  | invalidRegister
  /-- Dispatch: address outside the data memory. -/
  | outOfBounds
  /-- Dispatch: read of a register never written. -/
  | unwrittenRegister
  /-- Codec and assembler: value overflow for a field width. -/
  | encoding
  /-- Assembler: mnemonic not in the table. -/
  | unknownMnemonic
  /-- Assembler: arity mismatch. -/
  | operandCount
  /-- Assembler: operand form or kind. -/
  | operandKind
  /-- Instantiation refused. -/
  | load
  deriving DecidableEq, Repr

/-- The info fields an engine fault records (R150, last column). -/
inductive FaultInfo where
  /-- `need` and `available`, in bits (`TruncatedStreamError`). -/
  | bits (need available : Nat)
  /-- `opcode` (`UnknownOpcodeError`). -/
  | opcode (op : Nat)
  /-- `index` (`InvalidRegisterError`, `UnwrittenRegisterError`). -/
  | index (i : Nat)
  /-- `address` (`OutOfBoundsError`). -/
  | address (a : Nat)
  deriving DecidableEq, Repr

/-- The fault record (R32; 60_exceptions.md R154). -/
structure FaultRecord where
  kind : ErrorKind
  code : Nat
  /-- `pc0`, where the failing instruction starts. -/
  pc : Nat
  info : FaultInfo
  deriving DecidableEq, Repr

/-- An event of the trace (R35). -/
inductive Event where
  /-- `Out(v)`, `v` in -128..127. -/
  | out (v : Int)
  /-- `In(v)`, the pattern written to the register. -/
  | inp (v : Bits8)
  /-- `InRejected`: an answer that failed to parse. -/
  | inRejected
  deriving DecidableEq, Repr

/-- The host's answer to one IN (R36; 43_io.md R140): a free input under no law (D26). -/
inductive HostAnswer where
  /-- `Value(n)`, `n` any integer. -/
  | value (n : Int)
  /-- `ParseFailure`. -/
  | parseFailure
  deriving DecidableEq, Repr

/-- The whole architectural state: the tuple of R38, exactly its eight fields. The host's answers are none of them. -/
structure CoreState where
  /-- The register file: R0 to R3 (R20). -/
  regs : Vector Slot 4
  /-- The program counter: a bit offset (R24). -/
  pc : Nat
  /-- The end-of-program marker: a bit offset (R26). -/
  eof : Nat
  /-- Program memory `P`, one-bit cells; its size is `PROG_SIZE` (R27). -/
  prog : AddressSpace 1
  /-- Data memory `D`, 8-bit cells; its size is `DATA_SIZE` (R30). -/
  data : AddressSpace 8
  /-- The engine status (R31). -/
  status : Status
  /-- The fault record (R32). -/
  fault : Option FaultRecord
  /-- The event trace, oldest first (R35). -/
  trace : List Event
  deriving DecidableEq, Repr

/-- What the interface's step takes: the core's state, and beside it the input of the steps to come, the `resp` of R120. The
interface gives a step one argument, so the input travels with the core; it is no part of the core's state (R38; DESIGN CHOICE, log 4). -/
structure State extends CoreState where
  /-- THE MODEL'S OWN FIELD: the answers the host has given on port `in` and no IN has consumed, oldest first (R36, R143;
  log 4). Where it is empty, IN waits. -/
  answers : List HostAnswer
  deriving DecidableEq, Repr

/-- Why an instruction's pseudocode ends without completing. -/
inductive Stop where
  /-- `raise Fault(kind, info)` (00_scope.md R14). -/
  | fault (kind : ErrorKind) (info : FaultInfo)
  /-- `await In()` with no answer yet: the step is not taken (43_io.md R143). -/
  | wait
  deriving DecidableEq, Repr

/-- Faults that stop the machine without a next state. There are none: every engine fault of the spec TAKES the machine to
`Faulted`, which is a next state with its fault record (60_exceptions.md R155), and a step in a terminal state is a no-op
(42_control.md R121). Nobody raises a value of this type; safe (log 6). -/
inductive Fault
  deriving DecidableEq, Repr

/-- Refusals of a step. Every instruction of the table has its meaning, so none is refused. -/
inductive Refusal where
  /-- Raised only by an arm of `exec` whose instruction has no meaning yet; no arm raises it now. Safe. -/
  | notModelled (mnemonic : String)
  deriving DecidableEq, Repr

/-- The machine right after reset (R184): no register written, pc 0, `Ready`, no fault, empty trace, program memory and data
memory of the reference sizes. A reset of this core is also a load (R180); this state is the one of the empty image with
`eofBits` 0 (log 3, DESIGN CHOICE) and of a data image of zeros (log 2, DESIGN CHOICE), before any answer of the host (log 4, DESIGN CHOICE). -/
def State.reset : State where
  regs := #v[.unwritten, .unwritten, .unwritten, .unwritten]
  pc := 0
  eof := 0
  prog := { size := Config.Params.reference.progSize, cells := [] }
  data := { size := Config.Params.reference.dataSize, cells := [] }
  status := .ready
  fault := none
  trace := []
  answers := []

end Sys2Proof.Machine
end

