-- ==== Sys2Proof/Machine/Ops.lean ====
section
/-!
DEFINITION. The named operations the meanings share: memory, error codes, entering `Faulted` (the core's one exception entry; there
is no return from it, 60_exceptions.md R161), the advance of `pc`, dispatch, fetch, and one step over a given dispatcher.
-/

namespace Sys2Proof.Machine

/-- The value at an address; an unlisted address reads as 0 (20_memory.md R41 for program memory; DESIGN CHOICE, log 2, for data memory). -/
def Memory.read {w : Nat} : Memory w → Nat → BitVec w
  | [], _ => 0
  | (k, u) :: rest, a => if k = a then u else Memory.read rest a

/-- A write that keeps the canonical form: writing 0 removes the entry. -/
def Memory.write {w : Nat} : Memory w → Nat → BitVec w → Memory w
  | [], a, v => if v = 0 then [] else [(a, v)]
  | (k, u) :: rest, a, v =>
    if a < k then (if v = 0 then (k, u) :: rest else (a, v) :: (k, u) :: rest)
    else if a = k then (if v = 0 then rest else (a, v) :: rest)
    else (k, u) :: Memory.write rest a v

/-- The canonical form: addresses strictly rising, and no entry equal to what an unlisted address reads as. -/
abbrev Memory.wf {w : Nat} (m : Memory w) : Prop :=
  (m.map Prod.fst).Pairwise (fun a b => a < b) ∧ ∀ c ∈ m, c.2 ≠ 0

/-- The memory whose cells from address `start` on hold the given values, and every other cell 0. -/
def Memory.ofList {w : Nat} (start : Nat) : List (BitVec w) → Memory w
  | [] => []
  | v :: rest =>
    if v = 0 then Memory.ofList (start + 1) rest else (start, v) :: Memory.ofList (start + 1) rest

/-- Values written one after another from address `start` on. -/
def Memory.writeList {w : Nat} (m : Memory w) (start : Nat) : List (BitVec w) → Memory w
  | [] => m
  | v :: rest => Memory.writeList (m.write start v) (start + 1) rest

/-- An AddressSpace in canonical form, with every listed cell inside it. -/
abbrev AddressSpace.wf {w : Nat} (m : AddressSpace w) : Prop :=
  Memory.wf m.cells ∧ ∀ c ∈ m.cells, c.1 < m.size

/-- `AddressSpace.get` (R28): `OutOfBoundsError` outside `[0, size)`. -/
def AddressSpace.get {w : Nat} (m : AddressSpace w) (a : Nat) : Except Stop (BitVec w) :=
  if m.size ≤ a then .error (.fault .outOfBounds (.address a)) else .ok (m.cells.read a)

/-- `AddressSpace.set` (R29): `OutOfBoundsError` outside `[0, size)`. -/
def AddressSpace.set {w : Nat} (m : AddressSpace w) (a : Nat) (v : BitVec w) : Except Stop (AddressSpace w) :=
  if m.size ≤ a then .error (.fault .outOfBounds (.address a)) else .ok { m with cells := m.cells.write a v }

/-- The numeric code of an error kind (R150, D10). -/
def ErrorKind.code : ErrorKind → Nat
  | .truncatedStream => 1
  | .unknownOpcode => 2
  | .invalidRegister => 3
  | .outOfBounds => 4
  | .unwrittenRegister => 5
  | .encoding => 16
  | .unknownMnemonic => 17
  | .operandCount => 18
  | .operandKind => 19
  | .load => 32

/-- The five engine-stage kinds, the only ones that put a running core into `Faulted` (R150, R151). -/
def ErrorKind.isEngine : ErrorKind → Bool
  | .truncatedStream => true
  | .unknownOpcode => true
  | .invalidRegister => true
  | .outOfBounds => true
  | .unwrittenRegister => true
  | .encoding => false
  | .unknownMnemonic => false
  | .operandCount => false
  | .operandKind => false
  | .load => false

/-- The info fields a kind records (R150, last column). -/
def ErrorKind.infoFits : ErrorKind → FaultInfo → Bool
  | .truncatedStream, .bits _ _ => true
  | .unknownOpcode, .opcode _ => true
  | .invalidRegister, .index _ => true
  | .outOfBounds, .address _ => true
  | .unwrittenRegister, .index _ => true
  | _, _ => false

/-- The numeric code of a status (R31, D11). -/
def Status.code : Status → Nat
  | .ready => 0
  | .running => 1
  | .halted => 2
  | .faulted => 3

/-- The states no step leaves (R31, R121). -/
def Status.isTerminal : Status → Bool
  | .ready => false
  | .running => false
  | .halted => true
  | .faulted => true

/-- Entering `Faulted` (R154, R155): the status and the fault record, and nothing else. `pc0` is the start of the failing
instruction; the `pc` of `s` is kept as it is at the moment of the fault. -/
def State.enterFaulted (s : State) (kind : ErrorKind) (info : FaultInfo) (pc0 : Nat) : State :=
  { s with status := .faulted, fault := some { kind := kind, code := kind.code, pc := pc0, info := info } }

/-- The advance before execute (R123), in a core that has left `Ready` (R125). -/
def State.advance (s : State) (len : Nat) : State := { s with status := .running, pc := s.pc + len }

/-- One instruction of length `len` bits, from its start offset (R120 steps 3 and 4): `pc` advances, then the handler runs; a
fault enters `Faulted` with none of the handler's effect (R155); a wait leaves the state as it was (R143; DEDUCED, log 5). -/
def State.dispatch (s : State) (len : Nat) (handler : State → Except Stop State) :
    Host.Outcome State Fault Refusal :=
  match handler (s.advance len) with
  | .ok t => .next t
  | .error (.fault kind info) => .next ((s.advance len).enterFaulted kind info s.pc)
  | .error .wait => .next s

/-- Program memory as the decoder reads it: `P[b]` (R27, R66; no bounds check, R55: DEDUCED, log 9). -/
def State.progBit (s : State) (b : Nat) : Bit := s.prog.cells.read b

/-- Fetch and decode at `pc` (R67). -/
def State.fetch (s : State) : Except DecodeError (Instr × Nat) := decode s.progBit s.eof s.pc

/-- The engine fault kind of a decode error (R150). -/
def DecodeError.kind : DecodeError → ErrorKind
  | .truncated _ _ => .truncatedStream
  | .unknownOpcode _ => .unknownOpcode

/-- What a decode error records (R150, R154). -/
def DecodeError.info : DecodeError → FaultInfo
  | .truncated need available => .bits need available
  | .unknownOpcode op => .opcode op

/-- The error kind of a failing `BitReader.read` (R150, 30_encoding.md R62); none for a caller error, which the taxonomy does not have
(U11, log 14). -/
def ReadError.kind : ReadError → Option ErrorKind
  | .truncated _ _ => some .truncatedStream
  | .badWidth _ => none

/-- The numeric code of a failing `BitReader.read` (R150). -/
def ReadError.code (e : ReadError) : Option Nat := (ReadError.kind e).map ErrorKind.code

/-- What a failing `BitReader.read` records (R150, last column). -/
def ReadError.info : ReadError → Option FaultInfo
  | .truncated need available => some (.bits need available)
  | .badWidth _ => none

/-- The error kind of a failing `BitWriter.write` or encoding (R150, 30_encoding.md R60, R65); none for a caller error, which the
taxonomy does not have (U11, U12, log 14). The value and the width recorded are its own. -/
def WriteError.kind : WriteError → Option ErrorKind
  | .encoding _ _ => some .encoding
  | .operandCount _ _ => some .operandCount
  | .negative _ => none
  | .badWidth _ => none

/-- The numeric code of a failing `BitWriter.write` or encoding (R150). -/
def WriteError.code (e : WriteError) : Option Nat := (WriteError.kind e).map ErrorKind.code

/-- The end check (R120 step 1, R122). -/
def State.atEnd (s : State) : Bool := decide (s.eof ≤ s.pc) || decide (s.prog.size ≤ s.pc)

/-- `Step` of R120 over a dispatcher of decoded instructions. -/
def State.stepWith (ex : Instr → State → Host.Outcome State Fault Refusal) (s : State) :
    Host.Outcome State Fault Refusal :=
  if s.status.isTerminal then .next s
  else if s.atEnd then .next { s with status := .halted }
  else
    match s.fetch with
    | .error e => .next (s.enterFaulted (DecodeError.kind e) (DecodeError.info e) s.pc)
    | .ok (i, _) => ex i s

/-- The status that lets the next step run: a terminal one becomes `Running` (DESIGN CHOICE, log 17). -/
def Status.awake : Status → Status
  | .ready => .ready
  | .running => .running
  | .halted => .running
  | .faulted => .running

/-- `s` with bits placed where the next fetch reads: from `pc` on, `eof` and the program memory reaching past them, and a
status and fault record that let a step run (the host's question; log 17). -/
def State.placeBits (s : State) (bits : List Bit) : State :=
  { s with
    prog := { size := max s.prog.size (s.pc + bits.length), cells := s.prog.cells.writeList s.pc bits },
    eof := max s.eof (s.pc + bits.length),
    status := s.status.awake,
    fault := if s.status.isTerminal then none else s.fault }

end Sys2Proof.Machine
end

