-- ==== Sys2Proof/Machine/Operands.lean ====
section
/-!
DEFINITION. The operand forms: a register reference with its checks (10_state.md R21, R22), an absolute data address with its check
(R28, R29; 40_data_transfer.md R102: the one addressing mode), and the two ports (43_io.md R143, R144).
-/

namespace Sys2Proof.Machine

/-- The range check of a register that is only written (60_exceptions.md R158). -/
def State.regCheck (s : State) (i : Nat) : Except Stop State :=
  if Config.regCount ≤ i then .error (.fault .invalidRegister (.index i)) else .ok s

/-- `x[i]`: the range check before the `Unwritten` check (R21, R158). -/
def State.regRead (s : State) (i : Nat) : Except Stop Bits8 :=
  if Config.regCount ≤ i then .error (.fault .invalidRegister (.index i))
  else
    match s.regs[i]? with
    | some (.val b) => .ok b
    | _ => .error (.fault .unwrittenRegister (.index i))

/-- A register set to a value; an index outside the register file sets nothing. -/
def State.setReg (s : State) (i : Nat) (v : Bits8) : State := { s with regs := s.regs.setIfInBounds i (.val v) }

/-- `x[i] <- v` (R22). -/
def State.regWrite (s : State) (i : Nat) (v : Bits8) : Except Stop State :=
  if Config.regCount ≤ i then .error (.fault .invalidRegister (.index i)) else .ok (s.setReg i v)

/-- `D[a]` (R28). -/
def State.dataRead (s : State) (a : Nat) : Except Stop Bits8 := s.data.get a

/-- `D[a] <- v` (R29). -/
def State.dataWrite (s : State) (a : Nat) (v : Bits8) : Except Stop State :=
  match s.data.set a v with
  | .error e => .error e
  | .ok d => .ok { s with data := d }

/-- An event appended to the trace (R35). -/
def State.log (s : State) (e : Event) : State := { s with trace := s.trace ++ [e] }

/-- `await In()`: the oldest answer the host has given is consumed; without one the step is not taken (R143). -/
def State.awaitIn (s : State) : Except Stop (HostAnswer × State) :=
  match s.answers with
  | [] => .error .wait
  | ans :: rest => .ok (ans, { s with answers := rest })

end Sys2Proof.Machine
end

