-- ==== Sys2Proof/Machine/Arithmetic.lean ====
section
/-!
DEFINITION. The arithmetic family: ADD and SUB (41_arithmetic.md R110 to R112).
-/

namespace Sys2Proof.Machine

/-- The pseudocode R111 and R112 share, over the operation `op`: the destination's range, the source register, the data cell, and
only then the write. -/
def handleArith (op : Bits8 → Bits8 → Bits8) (r0 r1 a : Nat) (s : State) : Except Stop State := do
  let s ← s.regCheck r0
  let x ← s.regRead r1
  let d ← s.dataRead a
  s.regWrite r0 (op x d)

/-- ADD (R111). -/
def execAdd (r0 r1 a : Nat) (s : State) : Host.Outcome State Fault Refusal :=
  s.dispatch (lenOf 2) (handleArith add8 r0 r1 a)

/-- SUB (R112). -/
def execSub (r0 r1 a : Nat) (s : State) : Host.Outcome State Fault Refusal :=
  s.dispatch (lenOf 3) (handleArith sub8 r0 r1 a)

end Sys2Proof.Machine
end

