-- ==== Sys2Proof/Machine/Control.lean ====
section
/-!
DEFINITION. The control family: HALT (42_control.md R130, R131), the only control instruction.
-/

namespace Sys2Proof.Machine

/-- The pseudocode of R130. -/
def handleHalt (s : State) : Except Stop State := .ok { s with pc := s.eof, status := .halted }

/-- HALT (R130). -/
def execHalt (s : State) : Host.Outcome State Fault Refusal := s.dispatch (lenOf 4) handleHalt

end Sys2Proof.Machine
end

