-- ==== Sys2Proof/Machine/DataTransfer.lean ====
section
/-!
DEFINITION. The data-transfer family: MOVER and MOVEM (40_data_transfer.md R100, R101). A handler is the rule's pseudocode, run
after `pc` has advanced; the meaning is the handler inside the dispatch of R120.
-/

namespace Sys2Proof.Machine

/-- The pseudocode of R100. -/
def handleMover (r a : Nat) (s : State) : Except Stop State := do
  let s ← s.regCheck r
  let v ← s.dataRead a
  s.regWrite r v

/-- MOVER (R100). -/
def execMover (r a : Nat) (s : State) : Host.Outcome State Fault Refusal := s.dispatch (lenOf 0) (handleMover r a)

/-- The pseudocode of R101. -/
def handleMovem (r a : Nat) (s : State) : Except Stop State := do
  let v ← s.regRead r
  s.dataWrite a v

/-- MOVEM (R101). -/
def execMovem (r a : Nat) (s : State) : Host.Outcome State Fault Refusal := s.dispatch (lenOf 1) (handleMovem r a)

end Sys2Proof.Machine
end

