-- ==== Sys2Proof/Machine/InputOutput.lean ====
section
/-!
DEFINITION. The input and output family: IN and OUT (43_io.md R140 to R145).
-/

namespace Sys2Proof.Machine

/-- What an answer does to register `r` and the trace (R140, R141). -/
def State.acceptAnswer (s : State) (r : Nat) : HostAnswer → Except Stop State
  | .value n =>
    match s.regWrite r (bits8 n) with
    | .error e => .error e
    | .ok t => .ok (t.log (.inp (bits8 n)))
  | .parseFailure => .ok (s.log .inRejected)

/-- The pseudocode of R140: the register is checked before the request. -/
def handleIn (r : Nat) (s : State) : Except Stop State := do
  let s ← s.regCheck r
  let (ans, s) ← s.awaitIn
  s.acceptAnswer r ans

/-- IN (R140). -/
def execIn (r : Nat) (s : State) : Host.Outcome State Fault Refusal := s.dispatch (lenOf 5) (handleIn r)

/-- The pseudocode of R142: the value is delivered to the sink, which the trace records (R35, R144). -/
def handleOut (r : Nat) (s : State) : Except Stop State := do
  let v ← s.regRead r
  .ok (s.log (.out (int8 v)))

/-- OUT (R142). -/
def execOut (r : Nat) (s : State) : Host.Outcome State Fault Refusal := s.dispatch (lenOf 6) (handleOut r)

end Sys2Proof.Machine
end

