-- ==== Sys2Proof/Machine/Dispatch.lean ====
section
/-!
DEFINITION. Dispatch (42_control.md R124): the handler of each decoded instruction, with no other cases.
-/

namespace Sys2Proof.Machine

/-- One instruction, from the state at its start offset (R124). -/
def exec (i : Instr) (s : State) : Host.Outcome State Fault Refusal :=
  match i with
  | .mover r a => Sys2Proof.Machine.execMover r a s
  | .movem r a => Sys2Proof.Machine.execMovem r a s
  | .add r0 r1 a => Sys2Proof.Machine.execAdd r0 r1 a s
  | .sub r0 r1 a => Sys2Proof.Machine.execSub r0 r1 a s
  | .halt => Sys2Proof.Machine.execHalt s
  | .inp r => Sys2Proof.Machine.execIn r s
  | .out r => Sys2Proof.Machine.execOut r s

end Sys2Proof.Machine
end

