-- ==== Sys2Proof/Machine/Step.lean ====
section
/-!
DEFINITION. One step of the core (42_control.md R120), and the host's placement of an instruction word where the next step fetches it.
-/

namespace Sys2Proof.Machine

/-- One step (R120). -/
def step (s : State) : Host.Outcome State Fault Refusal := s.stepWith exec

/-- `s` with the table word's bits where the next step fetches its instruction (log 16, log 17). -/
def State.withFetchWord (s : State) (nbits w : Nat) : State := s.placeBits (tableBits nbits w)

end Sys2Proof.Machine
end

