-- ==== Sys2Proof/Machine/Assembler.lean ====
section
/-!
DEFINITION. The assembler's encoding driver (30_encoding.md R80 to R88), in scope as the toolchain view (00_scope.md R5). Its input is
the external tokenizer's: for each source statement its tokens, the mnemonic first (R80; the tokenizer itself is out of
scope, R6). No assembler error touches a core (60_exceptions.md R152).
-/

namespace Sys2Proof.Machine

/-- An operand string classified by its literal form (R84). -/
inductive Operand where
  /-- `R` and one decimal digit: the digit. -/
  | reg (n : Nat)
  /-- One or more decimal digits: the decimal number. -/
  | addr (n : Nat)
  deriving DecidableEq, Repr

/-- The kind of a classified operand. -/
def Operand.kind : Operand → OperandKind
  | .reg _ => .reg
  | .addr _ => .addr

/-- The value of a classified operand. -/
def Operand.value : Operand → Nat
  | .reg n => n
  | .addr n => n

/-- The value of a decimal digit. -/
def digitValue (c : Char) : Nat := c.toNat - '0'.toNat

/-- The value of decimal digits, leading zeros allowed (R84). -/
def decimalValue (cs : List Char) : Nat := cs.foldl (fun v c => 10 * v + digitValue c) 0

/-- A non-empty string of decimal digits is an address (R84). -/
def classifyDecimal (cs : List Char) : Option Operand :=
  if cs ≠ [] ∧ cs.all Char.isDigit = true then some (.addr (decimalValue cs)) else none

/-- Classification of an operand string (R84, D18); none where it is of neither form. -/
def classifyChars : List Char → Option Operand
  | ['R', d] => if d.isDigit then some (.reg (digitValue d)) else none
  | cs => classifyDecimal cs

/-- What an assembler error reports besides its kind and statement number (R150, last column). -/
inductive AsmInfo where
  /-- `EncodingError`: `value`, `width`. -/
  | encoding (value : Int) (width : Nat)
  /-- `UnknownMnemonicError`: `mnemonic`. -/
  | mnemonic (name : String)
  /-- `OperandCountError`: `expected`, `given`. -/
  | count (expected given : Nat)
  /-- `OperandKindError`: `operand`, `position` from 0. -/
  | operand (text : String) (position : Nat)
  deriving DecidableEq, Repr

/-- The error kind of a report (R150). -/
def AsmInfo.kind : AsmInfo → ErrorKind
  | .encoding _ _ => .encoding
  | .mnemonic _ => .unknownMnemonic
  | .count _ _ => .operandCount
  | .operand _ _ => .operandKind

/-- One reported error, with the number of its source statement, counted from 1 (R86). -/
structure AsmError where
  statement : Nat
  info : AsmInfo
  deriving DecidableEq, Repr

/-- The numeric code of a reported error (R150). -/
def AsmError.code (e : AsmError) : Nat := e.info.kind.code

/-- The row of a mnemonic: an exact, case-sensitive match (R82). -/
def rowOfMnemonic (name : String) : Option OpcodeRow := opcodeTable.find? (fun row => row.mnemonic == name)

/-- The operand strings classified one after another against the kinds the table declares (R84). -/
def classifyOperands (position : Nat) : List (OperandKind × Nat) → List String → Except AsmInfo (List Nat)
  | (kind, _) :: fields, text :: texts =>
    match classifyChars text.toList with
    | none => .error (.operand text position)
    | some op =>
      if op.kind = kind then
        match classifyOperands (position + 1) fields texts with
        | .error e => .error e
        | .ok vs => .ok (op.value :: vs)
      else .error (.operand text position)
  | _, _ => .ok []

/-- What the assembler reports of a failed encoding (R85, R86). It passes no width outside 1..32 and no negative value, so that the
last two never arise. -/
def writeErrorReport : WriteError → AsmInfo
  | .encoding v w => .encoding v w
  | .operandCount expected given => .count expected given
  | .negative v => .encoding v 0
  | .badWidth w => .encoding 0 w

/-- One statement, mnemonic and operand strings, into an instruction (R82 to R85): arity, then classification, then the encoder's own
check of the values (DEDUCED, log 11). An `AsmInfo.mnemonic` aborts the run. -/
def assembleStatement (name : String) (texts : List String) : Except AsmInfo Instr :=
  match rowOfMnemonic name with
  | none => .error (.mnemonic name)
  | some row =>
    if row.operands.length ≠ texts.length then .error (.count row.operands.length texts.length)
    else
      match classifyOperands 0 row.operands texts with
      | .error e => .error e
      | .ok vs =>
        match encodeFields row (vs.map Int.ofNat) with
        | .error e => .error (writeErrorReport e)
        | .ok _ =>
          match Instr.ofOperands row.opcode vs with
          | some i => .ok i
          | none => .error (.count row.operands.length texts.length)

/-- The instruction a source statement becomes: none for a blank one (R80) and for one that is skipped (R83, R85). -/
def statementInstr : List String → Option Instr
  | [] => none
  | name :: texts => (assembleStatement name texts).toOption

/-- The driver's state between statements. -/
structure AsmState where
  writer : BitWriter
  /-- The sum of the lengths of the accepted statements (R86). -/
  bitCount : Nat
  /-- The accepted instructions, in source order. -/
  accepted : List Instr
  /-- The errors met, in source order. -/
  errors : List AsmError
  deriving DecidableEq, Repr

/-- The driver before the first statement. -/
def AsmState.start : AsmState := { writer := BitWriter.empty, bitCount := 0, accepted := [], errors := [] }

/-- What a run yields (R82, R86). -/
inductive AsmResult where
  /-- An unknown mnemonic aborted the run: no image (R82). The errors end with that one (DESIGN CHOICE, log 12). -/
  | aborted (errors : List AsmError)
  /-- The image, `eofBits`, the accepted instructions, and the errors of the statements skipped; a run with errors reports
  failure, and still yields this image (R86). -/
  | assembled (image : List Bits8) (eofBits : Nat) (accepted : List Instr) (errors : List AsmError)
  deriving DecidableEq, Repr

/-- An accepted instruction emitted through the run's one BitWriter (R86). -/
def AsmState.emit (st : AsmState) (n : Nat) (i : Instr) : AsmState :=
  match st.writer.writeInstr i with
  | .ok wr => { st with writer := wr, bitCount := st.bitCount + i.length, accepted := st.accepted ++ [i] }
  | .error e => { st with errors := st.errors ++ [{ statement := n, info := writeErrorReport e }] }

/-- A statement skipped with its error (R83, R85, D19). -/
def AsmState.skip (st : AsmState) (n : Nat) (info : AsmInfo) : AsmState :=
  { st with errors := st.errors ++ [{ statement := n, info := info }] }

/-- The end of a run: one flush (R75). -/
def AsmState.finish (st : AsmState) : AsmResult := .assembled st.writer.flush.emitted st.bitCount st.accepted st.errors

/-- The run over the statements left, the first of them with number `n` (R80, R82, R83, R86). -/
def assembleFrom (n : Nat) (st : AsmState) : List (List String) → AsmResult
  | [] => st.finish
  | [] :: rest => assembleFrom (n + 1) st rest
  | (name :: texts) :: rest =>
    match assembleStatement name texts with
    | .ok i => assembleFrom (n + 1) (st.emit n i) rest
    | .error (.mnemonic m) => .aborted (st.skip n (.mnemonic m)).errors
    | .error info => assembleFrom (n + 1) (st.skip n info) rest

/-- The assembler over a whole source (R80 to R86). -/
def assemble (source : List (List String)) : AsmResult := assembleFrom 1 AsmState.start source

/-- A bit as a binary digit. -/
def bitDigit (b : Bit) : Char := if b = 0 then '0' else '1'

/-- Digit groups joined by a separator. -/
def joinDigits (sep : List Char) : List (List Char) → List Char
  | [] => []
  | [g] => g
  | g :: gs => g ++ sep ++ joinDigits sep gs

/-- One line of the debug text mirror (R88): each field as its width in binary digits, a space between fields in pretty mode, a
line feed at the end. -/
def mirrorLine (pretty : Bool) (i : Instr) : List Char :=
  joinDigits (if pretty then [' '] else []) (i.fields.map (fun f => (fieldBits f.1 f.2).map bitDigit)) ++ ['\n']

/-- White space inside a source line. -/
def isBlank (c : Char) : Bool := c == ' ' || c == '\t' || c == '\r'

/-- A source line without its comment: `;` starts one that runs to the end of the line (R81). -/
def dropComment (line : List Char) : List Char := line.takeWhile (fun c => c ≠ ';')

/-- Text without the white space around it. -/
def trimBlanks (cs : List Char) : List Char := ((cs.dropWhile isBlank).reverse.dropWhile isBlank).reverse

/-- Text cut at every occurrence of a character: always at least one piece. -/
def splitAtChar (sep : Char) : List Char → List (List Char)
  | [] => [[]]
  | c :: cs =>
    if c = sep then [] :: splitAtChar sep cs
    else
      match splitAtChar sep cs with
      | [] => [[c]]
      | piece :: pieces => (c :: piece) :: pieces

/-- The token group of one source line by the grammar of R81: the comment dropped, the mnemonic up to the first white space, and
what follows it, if anything, cut at commas; none of them for a blank line. DEDUCED: the tokenizer itself is an external
collaborator (R6; log 18). -/
def tokenizeLine (line : List Char) : List String :=
  let text := trimBlanks (dropComment line)
  let mnemonic := text.takeWhile (fun c => !isBlank c)
  let rest := trimBlanks (text.drop mnemonic.length)
  if text.isEmpty then []
  else if rest.isEmpty then [String.ofList mnemonic]
  else String.ofList mnemonic :: (splitAtChar ',' rest).map (fun piece => String.ofList (trimBlanks piece))

/-- The assembler over source text, one statement per line (R81). -/
def assembleText (source : List Char) : AsmResult := assemble ((splitAtChar '\n' source).map tokenizeLine)

/-- The debug text mirror of a run: one line per emitted instruction (R88); none of an aborted run (DEDUCED, log 20). -/
def mirror (pretty : Bool) : AsmResult → List Char
  | .aborted _ => []
  | .assembled _ _ accepted _ => accepted.flatMap (mirrorLine pretty)

end Sys2Proof.Machine
end

