-- ==== Sys2Proof/Machine/HostPort.lean ====
section
/-!
DEFINITION. The host's ports other than `step` (10_state.md R36): instantiation, which is the only reset and also the load
(70_reset_and_hazards.md R180 to R184), from an image or from a stored container (30_encoding.md R76); the delivery of an IN answer;
and the read-back between steps.
-/

namespace Sys2Proof.Machine

/-- Why a load is refused, `LoadError` with its `reason` (R182). No core is created. Safe. -/
inductive LoadReason where
  /-- The program would extend past the supplied bytes. -/
  | eofBeyondImage
  /-- The image does not fit program memory. -/
  | imageTooLarge
  /-- The data image is not exactly one byte per cell. -/
  | dataImageSize
  /-- A container whose length is not `2 + ceil(eofBits/8)`. -/
  | containerLength
  deriving DecidableEq, Repr

/-- The error kind of a refused load: `LoadError`, whatever its reason (60_exceptions.md R150; R182). -/
def LoadReason.kind : LoadReason → ErrorKind
  | .eofBeyondImage => .load
  | .imageTooLarge => .load
  | .dataImageSize => .load
  | .containerLength => .load

/-- The numeric code of a refused load (R150, R182). -/
def LoadReason.code (reason : LoadReason) : Nat := reason.kind.code

/-- The load checks (R182). Where several fail, the first in the rule's order is reported (DESIGN CHOICE, log 10). -/
def loadCheck (p : Config.Params) (image : List Bits8) (eofBits : Nat) (dataImage : List Bits8) : Option LoadReason :=
  if 8 * image.length < eofBits then some .eofBeyondImage
  else if p.progSize < 8 * image.length then some .imageTooLarge
  else if dataImage.length ≠ p.dataSize then some .dataImageSize
  else none

/-- The state every accepted instantiation gives (R180, R184). -/
def State.loaded (p : Config.Params) (image : List Bits8) (eofBits : Nat) (dataImage : List Bits8) : State where
  regs := #v[.unwritten, .unwritten, .unwritten, .unwritten]
  pc := 0
  eof := eofBits
  prog := { size := p.progSize, cells := Memory.ofList 0 (imageBits image) }
  data := { size := p.dataSize, cells := Memory.ofList 0 dataImage }
  status := .ready
  fault := none
  trace := []
  answers := []

/-- `instantiate(image, eofBits, dataImage)` (R180). -/
def instantiate (p : Config.Params) (image : List Bits8) (eofBits : Nat) (dataImage : List Bits8) :
    Except LoadReason State :=
  match loadCheck p image eofBits dataImage with
  | some reason => .error reason
  | none => .ok (State.loaded p image eofBits dataImage)

/-- The number of image bytes of a program of `eofBits` bits: `ceil(eofBits/8)` (R75, R76). -/
def imageLength (eofBits : Nat) : Nat := (eofBits + 7) / 8

/-- A stored container taken apart (R76): `eofBits` from a 2-byte big-endian count, then exactly the image bytes. -/
def parseContainer : List Bits8 → Except LoadReason (List Bits8 × Nat)
  | hi :: lo :: image =>
    if image.length = imageLength (256 * hi.toNat + lo.toNat) then .ok (image, 256 * hi.toNat + lo.toNat)
    else .error .containerLength
  | _ => .error .containerLength

/-- The container of an image (R76), for an `eofBits` below 2^16 and an image of `imageLength eofBits` bytes. R76 gives no behaviour
outside that: there the model keeps `eofBits` modulo 2^16 and appends the image unchecked (DESIGN CHOICE, log 25). -/
def makeContainer (image : List Bits8) (eofBits : Nat) : List Bits8 :=
  BitVec.ofNat 8 (eofBits / 256) :: BitVec.ofNat 8 eofBits :: image

/-- Instantiation from a stored container (R76, R182). -/
def instantiateContainer (p : Config.Params) (container dataImage : List Bits8) : Except LoadReason State :=
  match parseContainer container with
  | .error reason => .error reason
  | .ok (image, eofBits) => instantiate p image eofBits dataImage

/-- The host gives an answer on port `in` (R36, R143; DESIGN CHOICE, log 4). -/
def State.deliver (s : State) (ans : HostAnswer) : State := { s with answers := s.answers ++ [ans] }

/-- The contents of a memory, cell after cell from address 0 on. -/
def AddressSpace.contents {w : Nat} (m : AddressSpace w) : List (BitVec w) := (List.range m.size).map m.cells.read

/-- A step's core, the answers left aside. -/
def coreOutcome : Host.Outcome State Fault Refusal → Host.Outcome CoreState Fault Refusal
  | .next t => .next t.toCoreState
  | .fault r => .fault r
  | .refused r => .refused r

/-- `Step(s, resp)` of 42_control.md R120, on the core's state and the host's answer as two arguments; `none` where the host has
not answered (R143). -/
def CoreState.step (c : CoreState) (resp : Option HostAnswer) : Host.Outcome CoreState Fault Refusal :=
  coreOutcome (Machine.step { c with answers := resp.toList })

/-- What the host reads back between steps: every field of the state tuple of R38. R36's table of ports names six of them and leaves
out `prog` and `trace`, which R38 (every field) and 20_memory.md R54 (all effects) take in: the model follows R38. DEDUCED, log 24. -/
structure Readback where
  status : Status
  pc : Nat
  eof : Nat
  fault : Option FaultRecord
  /-- `reg[0..3]`. -/
  regs : List Slot
  /-- `data[0..DATA_SIZE-1]`. -/
  data : List Bits8
  /-- `prog[0..PROG_SIZE-1]` (R38; log 24). -/
  prog : List Bit
  /-- The event trace (R38; log 24). -/
  trace : List Event
  deriving DecidableEq, Repr

/-- Port `readback` (R36, R38): the eight fields of R38 (DEDUCED, log 24). -/
def CoreState.readback (c : CoreState) : Readback where
  status := c.status
  pc := c.pc
  eof := c.eof
  fault := c.fault
  regs := c.regs.toList
  data := c.data.contents
  prog := c.prog.contents
  trace := c.trace

/-- Port `readback` on a core with its input beside it, which is not read back. -/
def State.readback (s : State) : Readback := s.toCoreState.readback

end Sys2Proof.Machine
end

