-- ==== Sys2Proof/Safety.lean ====
section
/-!
DEFINITION. The terms claims use: the invariant of every reachable state, the end of a run (42_control.md R129), reachability under
every behaviour of the host, and runs of several steps.
-/

namespace Sys2Proof.Machine

/-- The outcome of a step is a next state. -/
def Advances (s t : State) : Prop := step s = .next t

/-- A fault record that 60_exceptions.md R154 allows in a program that ends at `eof`. -/
structure FaultRecord.Good (f : FaultRecord) (eof : Nat) : Prop where
  /-- Only the five engine kinds fault a core (R151). -/
  engine : f.kind.isEngine = true
  /-- The code is the kind's (R150). -/
  code : f.code = f.kind.code
  /-- The info fields are the kind's (R150). -/
  info : f.kind.infoFits f.info = true
  /-- The failing instruction starts inside the program (R154, R159). -/
  inside : f.pc < eof

/-- An event the trace may hold (R35). -/
def Event.Good : Event → Prop
  | .out v => -128 ≤ v ∧ v ≤ 127
  | .inp _ => True
  | .inRejected => True

/-- The invariant of every reachable state. -/
structure State.Inv (s : State) : Prop where
  /-- `pc <= eof` (R24). -/
  pc_le : s.pc ≤ s.eof
  /-- `eof <= PROG_SIZE` (R26). -/
  eof_le : s.eof ≤ s.prog.size
  /-- Program memory is in canonical form and inside its bounds. -/
  prog_wf : s.prog.wf
  /-- Data memory is in canonical form and inside its bounds. -/
  data_wf : s.data.wf
  /-- `Ready` means pc 0 and nothing executed (R31). -/
  ready : s.status = .ready → s.pc = 0 ∧ s.trace = [] ∧ ∀ i : Nat, i < 4 → s.regs[i]? = some .unwritten
  /-- In `Halted`, `pc = eof` (R131). -/
  halted : s.status = .halted → s.pc = s.eof
  /-- A fault record is there exactly in `Faulted` (R32). -/
  faulted : s.fault.isSome = true ↔ s.status = .faulted
  /-- The fault record is one the spec allows (R150, R151, R154). -/
  fault_good : ∀ f, s.fault = some f → f.Good s.eof
  /-- Every traced output is in -128..127 (R35). -/
  trace_good : ∀ e ∈ s.trace, e.Good

/-- A run has ended (R129). -/
abbrev State.Ended (s : State) : Prop := s.status.isTerminal = true

/-- A run has ended normally (R129). -/
abbrev State.EndedNormally (s : State) : Prop := s.status = .halted ∧ s.fault = none

/-- A run has ended abnormally (R129). -/
abbrev State.EndedAbnormally (s : State) : Prop := s.status = .faulted

/-- The core waits at an IN the host has not answered (R143). -/
def State.Waits (s : State) : Prop :=
  s.status.isTerminal = false ∧ s.atEnd = false ∧ s.answers = [] ∧
    ∃ r n, r < Config.regCount ∧ s.fetch = .ok (.inp r, n)

/-- What completing an instruction of `len` bits leaves alone and advances, whatever its effect: `pc` past it, `Running`, the end
marker, the program and the fault record as they were (R123, R26, R27, R32). -/
structure Completes (s t : State) (len : Nat) : Prop where
  pc : t.pc = s.pc + len
  status : t.status = .running
  eof : t.eof = s.eof
  prog : t.prog = s.prog
  fault : t.fault = s.fault

/-- Entering `Faulted` with `pc` left at `pcAfter`: the status and the record `(kind, code, pc0, info)`, and nothing else
(60_exceptions.md R154, R155). -/
structure EntersFaulted (s t : State) (pcAfter : Nat) (kind : ErrorKind) (code : Nat) (info : FaultInfo) : Prop where
  status : t.status = .faulted
  fault : t.fault = some { kind := kind, code := code, pc := s.pc, info := info }
  pc : t.pc = pcAfter
  regs : t.regs = s.regs
  data : t.data = s.data
  trace : t.trace = s.trace
  answers : t.answers = s.answers
  eof : t.eof = s.eof
  prog : t.prog = s.prog

/-- Executing `i` in `s` enters `Faulted` with this record, `pc` having advanced past `i` (R155, dispatch fault). -/
def ExecFaults (i : Instr) (s : State) (len : Nat) (kind : ErrorKind) (code : Nat) (info : FaultInfo) : Prop :=
  ∃ t, exec i s = .next t ∧ EntersFaulted s t (s.pc + len) kind code info

/-- Every register is as it was. -/
def KeepsRegs (s t : State) : Prop := ∀ j : Nat, t.regs[j]? = s.regs[j]?

/-- Every register but `r` is as it was. -/
def KeepsRegsBut (r : Nat) (s t : State) : Prop := ∀ j : Nat, j ≠ r → t.regs[j]? = s.regs[j]?

/-- Data memory has the same size, and every cell reads as it did. -/
def KeepsData (s t : State) : Prop := t.data.size = s.data.size ∧ ∀ b, t.data.cells.read b = s.data.cells.read b

/-- Data memory has the same size, and every cell but `a` reads as it did. -/
def KeepsDataBut (a : Nat) (s t : State) : Prop :=
  t.data.size = s.data.size ∧ ∀ b, b ≠ a → t.data.cells.read b = s.data.cells.read b

/-- Two states alike in everything but the data cells no address field can name (20_memory.md R48): cells 16 and up. -/
structure AlikeBelow16 (s t : State) : Prop where
  rest : t = { s with data := t.data }
  size : t.data.size = s.data.size
  low : ∀ a < 16, t.data.cells.read a = s.data.cells.read a

/-- A text spells the value of a field of the table: it is of the field's kind, and has that value (30_encoding.md R84). -/
def Operand.Spells (f : (OperandKind × Nat) × Nat) (text : String) : Prop :=
  ∃ op, classifyChars text.toList = some op ∧ op.kind = f.1.1 ∧ op.value = f.2

/-- The operand at position `k` of a statement is of neither form, or of another kind than the table declares there (R84). -/
def BadOperandAt (row : OpcodeRow) (texts : List String) (k : Nat) (text : String) : Prop :=
  texts[k]? = some text ∧ ∃ kind w, row.operands[k]? = some (kind, w) ∧
    ∀ op, classifyChars text.toList = some op → op.kind ≠ kind

/-- The states a host can bring a core to: an accepted instantiation, then steps and answers in any order (R36, R191). -/
inductive Reachable (p : Config.Params) (image : List Bits8) (eofBits : Nat) (dataImage : List Bits8) : State → Prop where
  /-- Instantiation (R180), with parameters R11 allows (log 7). -/
  | load {s : State} (hp : p.wf) (h : instantiate p image eofBits dataImage = .ok s) : Reachable p image eofBits dataImage s
  /-- A step (R120). -/
  | step {s t : State} (hs : Reachable p image eofBits dataImage s) (h : Advances s t) :
      Reachable p image eofBits dataImage t
  /-- An answer on port `in` (R143). -/
  | deliver {s : State} (hs : Reachable p image eofBits dataImage s) (ans : HostAnswer) :
      Reachable p image eofBits dataImage (s.deliver ans)

end Sys2Proof.Machine
end

