-- ==== Sys2Proof/Certificates/Slice0/Obligations.lean ====
section
/-!
DEFINITION. The statements for the provers. Each docstring names the rules of spec/ a statement formalises. `s` is a state before, `t`
a state after; memory is read through `Memory.read`, one cell at a time.
-/

open Sys2Proof Sys2Proof.Machine

/-! ## The instructions -/

/-- R100: MOVER's encoding, its checks in order, and, when they pass, its whole effect and its frame. The destination is not read. Which
check comes first is the spec's decision D6, the codes its decision D10, the record's `pc` its decision D24 (log 21). -/
def Obligations.MoverCopiesCellToRegister : Prop :=
  ∀ (r a : Nat) (s : State),
    (∀ bits, encode (.mover r a) = .ok bits ↔ r < 4 ∧ a < 16 ∧ bits = fieldBits (r * 16 + a) 10) ∧
    (4 ≤ r → ExecFaults (.mover r a) s 10 .invalidRegister 3 (.index r)) ∧
    (r < 4 → s.data.size ≤ a → ExecFaults (.mover r a) s 10 .outOfBounds 4 (.address a)) ∧
    (r < 4 → a < s.data.size →
      ∃ t, exec (.mover r a) s = .next t ∧ t.regs[r]? = some (.val (s.data.cells.read a)) ∧
        Completes s t 10 ∧ KeepsRegsBut r s t ∧ KeepsData s t ∧ t.trace = s.trace ∧ t.answers = s.answers)

/-- R101: MOVEM's encoding, its checks in order, and, when they pass, the cell it stores to and its frame. The premise on the store is
part of the state invariant `State.Inv`. That an unwritten register faults is the spec's decision D2, the order of the checks D6, the
codes D10, the record's `pc` D24 (log 1, log 21). -/
def Obligations.MovemStoresRegister : Prop :=
  ∀ (r a : Nat) (s : State),
    (∀ bits, encode (.movem r a) = .ok bits ↔ r < 4 ∧ a < 16 ∧ bits = fieldBits (1 * 64 + r * 16 + a) 10) ∧
    (4 ≤ r → ExecFaults (.movem r a) s 10 .invalidRegister 3 (.index r)) ∧
    (s.regs[r]? = some .unwritten → ExecFaults (.movem r a) s 10 .unwrittenRegister 5 (.index r)) ∧
    (∀ b, s.regs[r]? = some (.val b) → s.data.size ≤ a → ExecFaults (.movem r a) s 10 .outOfBounds 4 (.address a)) ∧
    (∀ b, s.regs[r]? = some (.val b) → a < s.data.size → s.data.wf →
      ∃ t, exec (.movem r a) s = .next t ∧ t.data.cells.read a = b ∧ t.data.wf ∧
        Completes s t 10 ∧ KeepsRegs s t ∧ KeepsDataBut a s t ∧ t.trace = s.trace ∧ t.answers = s.answers)

/-- R111: ADD's encoding, its checks in order, and, when they pass, the sum modulo 256 in its destination and its frame; the source is
read before the destination is written, and the destination is not read. That an unwritten source faults is the spec's decision D2, the
order of the checks D6, the codes D10, the record's `pc` D24 (log 1, log 21). -/
def Obligations.AddWritesWrappedSum : Prop :=
  ∀ (r0 r1 a : Nat) (s : State),
    (∀ bits, encode (.add r0 r1 a) = .ok bits ↔
      r0 < 4 ∧ r1 < 4 ∧ a < 16 ∧ bits = fieldBits (2 * 256 + r0 * 64 + r1 * 16 + a) 12) ∧
    (4 ≤ r0 → ExecFaults (.add r0 r1 a) s 12 .invalidRegister 3 (.index r0)) ∧
    (r0 < 4 → 4 ≤ r1 → ExecFaults (.add r0 r1 a) s 12 .invalidRegister 3 (.index r1)) ∧
    (r0 < 4 → s.regs[r1]? = some .unwritten → ExecFaults (.add r0 r1 a) s 12 .unwrittenRegister 5 (.index r1)) ∧
    (∀ b, r0 < 4 → s.regs[r1]? = some (.val b) → s.data.size ≤ a →
      ExecFaults (.add r0 r1 a) s 12 .outOfBounds 4 (.address a)) ∧
    (∀ b, r0 < 4 → s.regs[r1]? = some (.val b) → a < s.data.size →
      ∃ t v, exec (.add r0 r1 a) s = .next t ∧ t.regs[r0]? = some (.val v) ∧
        v.toNat = (b.toNat + (s.data.cells.read a).toNat) % 256 ∧
        Completes s t 12 ∧ KeepsRegsBut r0 s t ∧ KeepsData s t ∧ t.trace = s.trace ∧ t.answers = s.answers)

/-- R112: SUB, as ADD, with the register minus the data cell, in that order; it rests on the spec's decisions D2,
D6, D10 and D24 as ADD does (log 1, log 21). -/
def Obligations.SubWritesWrappedDifference : Prop :=
  ∀ (r0 r1 a : Nat) (s : State),
    (∀ bits, encode (.sub r0 r1 a) = .ok bits ↔
      r0 < 4 ∧ r1 < 4 ∧ a < 16 ∧ bits = fieldBits (3 * 256 + r0 * 64 + r1 * 16 + a) 12) ∧
    (4 ≤ r0 → ExecFaults (.sub r0 r1 a) s 12 .invalidRegister 3 (.index r0)) ∧
    (r0 < 4 → 4 ≤ r1 → ExecFaults (.sub r0 r1 a) s 12 .invalidRegister 3 (.index r1)) ∧
    (r0 < 4 → s.regs[r1]? = some .unwritten → ExecFaults (.sub r0 r1 a) s 12 .unwrittenRegister 5 (.index r1)) ∧
    (∀ b, r0 < 4 → s.regs[r1]? = some (.val b) → s.data.size ≤ a →
      ExecFaults (.sub r0 r1 a) s 12 .outOfBounds 4 (.address a)) ∧
    (∀ b, r0 < 4 → s.regs[r1]? = some (.val b) → a < s.data.size →
      ∃ t v, exec (.sub r0 r1 a) s = .next t ∧ t.regs[r0]? = some (.val v) ∧
        (v.toNat : Int) = ((b.toNat : Int) - ((s.data.cells.read a).toNat : Int)) % 256 ∧
        Completes s t 12 ∧ KeepsRegsBut r0 s t ∧ KeepsData s t ∧ t.trace = s.trace ∧ t.answers = s.answers)

/-- R130: HALT is the four bits 0100; it sets `pc` to `eof`, which is the spec's decision D5 (C3), and the status to `Halted`, and changes
nothing else. -/
def Obligations.HaltStopsAtEof : Prop :=
  encode .halt = .ok [0, 1, 0, 0] ∧
    ∀ s : State, exec .halt s = .next { s with pc := s.eof, status := .halted }

/-- R140: IN's encoding; the register is checked before the request; then the oldest answer is consumed: `Value(n)` writes `bits8(n)`,
`ParseFailure` leaves every register, and each leaves its event in the trace. (What happens without an answer is R143's.)
That an integer outside -128..127 is stored modulo 256 is the spec's decision D7 (log 21): for one inside, the value stored reads back as
itself. The events are its decision D8, the code D10, the record's `pc` D24; that answers wait in a list beside the core is the model's
choice (log 4). -/
def Obligations.InConsumesOneAnswer : Prop :=
  ∀ (r : Nat) (s : State),
    (∀ bits, encode (.inp r) = .ok bits ↔ r < 4 ∧ bits = fieldBits (5 * 4 + r) 6) ∧
    (4 ≤ r → ExecFaults (.inp r) s 6 .invalidRegister 3 (.index r)) ∧
    (∀ n rest, r < 4 → s.answers = .value n :: rest →
      ∃ t, exec (.inp r) s = .next t ∧ t.regs[r]? = some (.val (bits8 n)) ∧ t.trace = s.trace ++ [.inp (bits8 n)] ∧
        t.answers = rest ∧ Completes s t 6 ∧ KeepsRegsBut r s t ∧ KeepsData s t) ∧
    (∀ rest, r < 4 → s.answers = .parseFailure :: rest →
      ∃ t, exec (.inp r) s = .next t ∧ t.trace = s.trace ++ [.inRejected] ∧
        t.answers = rest ∧ Completes s t 6 ∧ KeepsRegs s t ∧ KeepsData s t)

/-- R143: until the host answers, a step at an IN changes nothing at all (the spec's decision D9; log 5); an answer the host then gives is
the one consumed, in that step; and an answer in any other state of the core changes nothing but the answers waiting. That answers wait
in a list beside the core is the model's choice (log 4). -/
def Obligations.InWaitsForItsAnswer : Prop :=
  (∀ s : State, s.Waits → step s = .next s) ∧
    (∀ (s : State) (ans : HostAnswer), s.Waits → ∃ t, step (s.deliver ans) = .next t ∧ t.answers = [] ∧
      t.pc = s.pc + 6 ∧ t.status = .running) ∧
    (∀ (s : State) (ans : HostAnswer), s.deliver ans = { s with answers := s.answers ++ [ans] })

/-- R142, R144: OUT's encoding, its checks in order, and, when they pass, the one signed value it emits, in -128..127, and its frame. An
unwritten register faults by the spec's decision D2, OUT never waits by its decision D9, the codes are D10, the record's `pc` D24
(log 1, log 21); the signed value of a pattern is log 22's. -/
def Obligations.OutEmitsSignedValue : Prop :=
  ∀ (r : Nat) (s : State),
    (∀ bits, encode (.out r) = .ok bits ↔ r < 4 ∧ bits = fieldBits (6 * 4 + r) 6) ∧
    (4 ≤ r → ExecFaults (.out r) s 6 .invalidRegister 3 (.index r)) ∧
    (s.regs[r]? = some .unwritten → ExecFaults (.out r) s 6 .unwrittenRegister 5 (.index r)) ∧
    (∀ b, s.regs[r]? = some (.val b) →
      ∃ t v, exec (.out r) s = .next t ∧ t.trace = s.trace ++ [.out v] ∧ v = b.toInt ∧ -128 ≤ v ∧ v ≤ 127 ∧
        Completes s t 6 ∧ KeepsRegs s t ∧ KeepsData s t ∧ t.answers = s.answers)

/-- R141: an integer in -128..127 is stored as itself; any other keeps its low 8 bits (200 reads back as -56, 256 as 0), which is
the spec's decision D7 (log 21). The signed value of a pattern is log 22's. -/
def Obligations.InValueKeepsLowEightBits : Prop :=
  (∀ n : Int, ((bits8 n).toNat : Int) = n % 256) ∧
    (∀ n : Int, -128 ≤ n → n ≤ 127 → int8 (bits8 n) = n) ∧ int8 (bits8 200) = -56 ∧ int8 (bits8 256) = 0

/-- R110: the sum and the difference modulo 256, the same whether the operands are read as signed or as unsigned, which R110 marks
as derived from R13, whose signed value is the spec's general knowledge G1 (log 22). -/
def Obligations.ArithmeticWraps : Prop :=
  ∀ s d : Bits8,
    ((add8 s d).toNat : Int) = ((s.toNat : Int) + d.toNat) % 256 ∧ add8 s d = bits8 (int8 s + int8 d) ∧
    ((sub8 s d).toNat : Int) = ((s.toNat : Int) - d.toNat) % 256 ∧ sub8 s d = bits8 (int8 s - int8 d)

/-- R113: the signed view: the wrapped exact result, which is exact when it lies in -128..127 and differs by exactly 256 otherwise.
R113 marks it as derived; the signed value of a pattern is log 22's. -/
def Obligations.SignedViewOfArithmetic : Prop :=
  ∀ s d : Bits8,
    int8 (add8 s d) = wrap8 (int8 s + int8 d) ∧ int8 (sub8 s d) = wrap8 (int8 s - int8 d) ∧
    (int8 (add8 s d) = int8 s + int8 d ↔ -128 ≤ int8 s + int8 d ∧ int8 s + int8 d ≤ 127) ∧
    (int8 (sub8 s d) = int8 s - int8 d ↔ -128 ≤ int8 s - int8 d ∧ int8 s - int8 d ≤ 127) ∧
    (int8 (add8 s d) ≠ int8 s + int8 d →
      int8 (add8 s d) = int8 s + int8 d + 256 ∨ int8 (add8 s d) = int8 s + int8 d - 256) ∧
    (int8 (sub8 s d) ≠ int8 s - int8 d →
      int8 (sub8 s d) = int8 s - int8 d + 256 ∨ int8 (sub8 s d) = int8 s - int8 d - 256)

/-! ## Registers and memory -/

/-- R21, R22: the range check before the `Unwritten` check; a write replaces whatever the register held, and no other.
The `Unwritten` check is the spec's decision D2. -/
def Obligations.RegisterFileChecks : Prop :=
  ∀ (s : State) (i : Nat) (v : Bits8),
    (4 ≤ i → s.regRead i = .error (.fault .invalidRegister (.index i)) ∧
      s.regWrite i v = .error (.fault .invalidRegister (.index i))) ∧
    (i < 4 → s.regs[i]? = some .unwritten → s.regRead i = .error (.fault .unwrittenRegister (.index i))) ∧
    (∀ b, i < 4 → s.regs[i]? = some (.val b) → s.regRead i = .ok b) ∧
    (i < 4 → ∃ t, s.regWrite i v = .ok t ∧ t.regRead i = .ok v ∧ KeepsRegsBut i s t ∧ t = { s with regs := t.regs })

/-- R28, R29, R50: a data access outside the memory is out of bounds; a store is read back by the next load of that cell, whatever lies
between that stores elsewhere; it leaves every other cell, and keeps the memory's canonical form, in which equal contents are equal
data. -/
def Obligations.DataReadAfterWrite : Prop :=
  (∀ (s : State) (a : Nat) (v : Bits8), s.data.size ≤ a →
      s.dataRead a = .error (.fault .outOfBounds (.address a)) ∧ s.dataWrite a v = .error (.fault .outOfBounds (.address a))) ∧
    (∀ (s : State) (a : Nat) (v : Bits8), s.data.wf → a < s.data.size →
      ∃ t, s.dataWrite a v = .ok t ∧ t.dataRead a = .ok v ∧ KeepsDataBut a s t ∧ t.data.wf ∧ t = { s with data := t.data }) ∧
    (∀ m n : AddressSpace 8, m.wf → n.wf → m.size = n.size → (∀ a, m.cells.read a = n.cells.read a) → m = n)

/-- R23, R30, R52: over a whole step, a register changes only as the register operand 0 of MOVER, ADD, SUB or IN, a data cell only as
the address of MOVEM; program memory never. -/
def Obligations.OnlyHandlersWrite : Prop :=
  ∀ s t : State, step s = .next t →
    (∀ j : Nat, t.regs[j]? ≠ s.regs[j]? → ∃ i n, s.fetch = .ok (i, n) ∧
      ((∃ a, i = .mover j a) ∨ (∃ r1 a, i = .add j r1 a) ∨ (∃ r1 a, i = .sub j r1 a) ∨ i = .inp j)) ∧
    (∀ a, t.data.cells.read a ≠ s.data.cells.read a → ∃ r n, s.fetch = .ok (.movem r a, n)) ∧
    t.prog = s.prog ∧ t.data.size = s.data.size

/-- R145, R35: a step appends at most one event, at the end, and only an IN or an OUT does. -/
def Obligations.TraceGrowsInOrder : Prop :=
  ∀ s t : State, step s = .next t →
    t.trace = s.trace ∨
      ∃ e i n, t.trace = s.trace ++ [e] ∧ s.fetch = .ok (i, n) ∧
        ((∃ r, i = .inp r ∧ ((∃ v, e = .inp v) ∨ e = .inRejected)) ∨ (∃ r v, i = .out r ∧ e = .out v))

/-! ## The step -/

/-- R120, R124: in a core that is in no terminal state and not at its end, bits that decode to `i` make the step be `exec i`; `i` is well
formed, and its trailing offset is `pc` plus its length, inside the program. The advance of `pc` is part of `exec`. -/
def Obligations.StepRunsDecodedInstruction : Prop :=
  ∀ (s : State) (i : Instr) (n : Nat), s.status.isTerminal = false → s.pc < s.eof → s.pc < s.prog.size →
    s.fetch = .ok (i, n) → step s = exec i s ∧ i.wf = true ∧ n = s.pc + i.length ∧ n ≤ s.eof

/-- R121: a step in `Halted` or `Faulted` changes nothing; that it is no error is the spec's decision D11. -/
def Obligations.TerminalStepChangesNothing : Prop :=
  ∀ s : State, s.status = .halted ∨ s.status = .faulted → step s = .next s

/-- R122, R159: a step that finds `pc` at or past `eof` gives `Halted`, never a fault, and changes nothing else. -/
def Obligations.EndCheckHalts : Prop :=
  ∀ s : State, s.status = .ready ∨ s.status = .running → s.eof ≤ s.pc →
    step s = .next { s with status := .halted }

/-- R120, R38: a step always answers a next state, this core having no other stop, its faults being the status `Faulted` (R155; log 6);
and it is `Step(s, resp)` of R120 on the eight fields of R38, the oldest answer waiting being `resp`: the answers are no part of the core's
state, a step takes at most the oldest one away, only IN does, and no other instruction's step depends on it. That the answers stand in a
list beside the core is the model's choice (log 4). -/
def Obligations.StepAlwaysAnswers : Prop :=
  ∀ s : State, ∃ (c : CoreState) (waiting : List HostAnswer),
    step s = .next { c with answers := waiting } ∧ s.toCoreState.step s.answers.head? = .next c ∧
    (waiting = s.answers ∨
      s.answers ≠ [] ∧ waiting = s.answers.tail ∧ s.status.isTerminal = false ∧ ∃ r n, s.fetch = .ok (.inp r, n)) ∧
    ((∀ r n, s.fetch ≠ .ok (.inp r, n)) → ∀ resp, s.toCoreState.step resp = .next c)

/-- R123: where `pc` stands after a completed instruction that is not HALT, after a dispatch fault, and after a decode fault. That the
record of a dispatch fault names the instruction's start (R154) is the spec's decision D24 (log 21). -/
def Obligations.AdvanceBeforeExecute : Prop :=
  ∀ s t : State, s.status.isTerminal = false → s.atEnd = false → step s = .next t →
    (∀ e, s.fetch = .error e → t.status = .faulted ∧ t.pc = s.pc) ∧
    (∀ i n, s.fetch = .ok (i, n) → n = s.pc + lenOf i.opcode ∧
      (t.status = .faulted → t.pc = n ∧ ∃ f, t.fault = some f ∧ f.pc = s.pc) ∧
      (t.status ≠ .faulted → i ≠ .halt → ¬ s.Waits → t.pc = n))

/-- R125, R143: the first step leaves `Ready`; no step returns to it. The one step that ends in `Ready` is that of an IN waiting in
`Ready` for its answer, which is not taken (the spec's decisions D12 and D9; log 5). -/
def Obligations.NoStepReturnsToReady : Prop :=
  ∀ s t : State, step s = .next t → t.status = .ready → t = s ∧ s.Waits

/-- R25: `pc` changes only by a decode, to the trailing offset, or by HALT, to `eof`; it never exceeds `eof`. -/
def Obligations.PcChangesTwoWays : Prop :=
  ∀ s t : State, step s = .next t →
    (t.pc = s.pc ∨ (∃ i, s.fetch = .ok (i, t.pc) ∧ t.pc = s.pc + lenOf i.opcode) ∨
      (∃ n, s.fetch = .ok (.halt, n) ∧ t.pc = s.eof)) ∧
    (s.pc ≤ s.eof → t.pc ≤ s.eof)

/-- R128: every step from `Ready` or `Running` ends the run, advances `pc` by at least 4, or waits at an IN with no answer; so
unless an IN waits, a run ends within `floor((eof - pc)/4) + 1` steps, which is `floor(eof/4) + 1` from `Ready`. -/
def Obligations.RunsEndUnlessAnInWaits : Prop :=
  (∀ s t : State, s.Inv → s.status.isTerminal = false → step s = .next t →
    t.Ended ∨ s.pc + 4 ≤ t.pc ∨ s.Waits ∧ t = s) ∧
    (∀ s : State, s.Inv →
      (∃ u, core.run ((s.eof - s.pc) / 4 + 1) s = .next u ∧ u.Ended) ∨
        ∃ k u, k ≤ (s.eof - s.pc) / 4 ∧ core.run k s = .next u ∧ u.Waits)

/-- R131: HALT sets `pc` to `eof`, and in every reachable `Halted` state `pc = eof` (the spec's decision D5). -/
def Obligations.HaltedMeansPcAtEof : Prop :=
  (∀ s t : State, exec .halt s = .next t → t.pc = s.eof) ∧
    ∀ p image eofBits dataImage s, Reachable p image eofBits dataImage s → s.status = .halted → s.pc = s.eof

/-! ## Decode -/

/-- R157: too few bits for an opcode, then an illegal opcode, then too few bits for the instruction; a decode fault comes before
every dispatch fault, since then nothing is dispatched. That the stream ends at `eof` is the spec's decision D4, the recorded numbers and
`pc` its decision D24, the codes D10 (log 21). -/
def Obligations.DecodeFaultPriority : Prop :=
  ∀ s : State, s.status.isTerminal = false → s.pc < s.eof → s.pc < s.prog.size →
    (s.eof - s.pc < 4 →
      ∃ t, step s = .next t ∧ EntersFaulted s t s.pc .truncatedStream 1 (.bits 4 (s.eof - s.pc))) ∧
    (∀ op, op = field s.progBit s.pc 4 → 4 ≤ s.eof - s.pc → 7 ≤ op →
      ∃ t, step s = .next t ∧ EntersFaulted s t s.pc .unknownOpcode 2 (.opcode op)) ∧
    (∀ op, op = field s.progBit s.pc 4 → 4 ≤ s.eof - s.pc → op < 7 → s.eof - s.pc < lenOf op →
      ∃ t, step s = .next t ∧ EntersFaulted s t s.pc .truncatedStream 1 (.bits (lenOf op) (s.eof - s.pc)))

/-- R68, R69: the decoder answers an instruction and its trailing offset, or one of two errors, and depends only on the bits from `pc`
up to `eof` (the spec's decision D4). -/
def Obligations.DecodeIsTotalAndLocal : Prop :=
  ∀ (P : Nat → Bit) (eof pc : Nat), pc < eof →
    ((∃ i, decode P eof pc = .ok (i, pc + i.length) ∧ i.wf = true ∧ pc + i.length ≤ eof ∧ i.opcode = field P pc 4) ∨
      (∃ need, decode P eof pc = .error (.truncated need (eof - pc)) ∧ eof - pc < need ∧
        (need = 4 ∨ need = lenOf (field P pc 4))) ∨
      decode P eof pc = .error (.unknownOpcode (field P pc 4)) ∧ pc + 4 ≤ eof ∧ 7 ≤ field P pc 4 ∧ field P pc 4 ≤ 15) ∧
    ∀ Q : Nat → Bit, (∀ b, pc ≤ b → b < eof → P b = Q b) → decode P eof pc = decode Q eof pc

/-- R71: the opcodes 7 to 15 are illegal, whatever follows them, and only they: the step enters `Faulted` with state otherwise
unchanged. The record's code is the spec's decision D10, its `pc` the decision D24 (log 21). -/
def Obligations.IllegalOpcodesFault : Prop :=
  ∀ s : State, s.status.isTerminal = false → s.pc + 4 ≤ s.eof → s.pc < s.prog.size →
    (7 ≤ field s.progBit s.pc 4 ↔ ∃ t op, step s = .next t ∧ EntersFaulted s t s.pc .unknownOpcode 2 (.opcode op))

/-- R66: `Field(p, w)` is the sum of its bits, each with the weight of its place; and it is what a BitReader reads, where the bits left in
it are those from offset `p` on. -/
def Obligations.FieldIsMsbFirstSum : Prop :=
  ∀ (P : Nat → Bit) (p w : Nat),
    field P p w = ((List.range w).map (fun k => (P (p + k)).toNat * 2 ^ (w - 1 - k))).sum ∧
    ∀ (rd rd' : BitReader) (v : Nat), (∀ k < rd.bits.length, P (p + k) = rd.bits.getD k 0) → rd.read w = .ok (v, rd') →
      field P p w = v

/-- R64: the lengths, and the places of the fields in the word `W` of each format, which is what a well-formed instruction encodes to,
first-fetched bit first. -/
def Obligations.FormatsAndLengths : Prop :=
  [0, 1, 2, 3, 4, 5, 6].map lenOf = [10, 10, 12, 12, 4, 6, 6] ∧
    ∀ (i : Instr) (bits : List Bit), encode i = .ok bits →
      bits.length = lenOf i.opcode ∧
      ∃ W, bits = fieldBits W (lenOf i.opcode) ∧ W < 2 ^ lenOf i.opcode ∧ W / 2 ^ (lenOf i.opcode - 4) = i.opcode ∧
        (lenOf i.opcode = 4 → i.operands = []) ∧ (lenOf i.opcode = 6 → i.operands = [W % 4]) ∧
        (lenOf i.opcode = 10 → i.operands = [W / 16 % 4, W % 16]) ∧
        (lenOf i.opcode = 12 → i.operands = [W / 64 % 4, W / 16 % 4, W % 16])

/-- R65: encoding a row of the table with any integers as operands: a wrong number of them is an `OperandCountError`; else the first value
that is negative or too large for its width is an `EncodingError`, and no bit goes to the packer (the spec's decision D19); else they are
the operands of a well-formed instruction of that row, whose bits are packed. So an instruction encodes exactly when it is well formed. -/
def Obligations.EncodeChecksEveryField : Prop :=
  (∀ i : Instr, (i.wf = true ↔ ∃ bits, encode i = .ok bits) ∧
    (i.wf = false → ∃ (before : List (Nat × Nat)) (v w : Nat) (after : List (Nat × Nat)),
      i.operandFields = before ++ (v, w) :: after ∧ 2 ^ w ≤ v ∧ (∀ f ∈ before, f.1 < 2 ^ f.2) ∧
      encode i = .error (.encoding v w) ∧ ∀ wr : BitWriter, wr.writeInstr i = .error (.encoding v w))) ∧
  ∀ row ∈ opcodeTable, ∀ (operands : List Int) (wr : BitWriter),
    (operands.length ≠ row.operands.length →
      encodeOperands row operands = .error (.operandCount row.operands.length operands.length) ∧
      wr.writeOperands row operands = .error (.operandCount row.operands.length operands.length)) ∧
    (∀ (before : List (Int × Nat)) (v : Int) (w : Nat) (after : List (Int × Nat)), operands.length = row.operands.length →
      operands.zip row.widths = before ++ (v, w) :: after → (∀ f ∈ before, 0 ≤ f.1 ∧ f.1 < 2 ^ f.2) → v < 0 ∨ 2 ^ w ≤ v →
        encodeOperands row operands = .error (.encoding v w) ∧ wr.writeOperands row operands = .error (.encoding v w)) ∧
    (operands.length = row.operands.length → (∀ f ∈ operands.zip row.widths, 0 ≤ f.1 ∧ f.1 < 2 ^ f.2) → wr.acc.length < 8 →
      ∃ (i : Instr) (bits : List Bit) (wr' : BitWriter), i.row = row ∧ i.wf = true ∧ i.operands.map Int.ofNat = operands ∧
        encode i = .ok bits ∧ encodeOperands row operands = .ok bits ∧ wr.writeOperands row operands = .ok wr' ∧
        wr'.bits = wr.bits ++ bits ∧ wr'.acc.length < 8)

/-- R74: every well-formed instruction has an encoding, and wherever its bits lie in a program that reaches past them, decoding there
gives back the instruction and the offset just past it. -/
def Obligations.DecodeOfEncodeIsIdentity : Prop :=
  ∀ i : Instr, i.wf = true →
    ∃ bits, encode i = .ok bits ∧ bits.length = lenOf i.opcode ∧
      ∀ (P : Nat → Bit) (eof pc : Nat), (∀ k < bits.length, P (pc + k) = bits.getD k 0) → pc + bits.length ≤ eof →
        decode P eof pc = .ok (i, pc + lenOf i.opcode)

/-- The other direction: what decodes to `i` is exactly the encoding of `i`, so that each word has one meaning (R70, R73, R74). -/
def Obligations.EncodeOfDecodeIsTheProgram : Prop :=
  ∀ (P : Nat → Bit) (eof pc n : Nat) (i : Instr), decode P eof pc = .ok (i, n) →
    encode i = .ok ((List.range (n - pc)).map (fun k => P (pc + k)))

/-- Words written out from the table of R70 decode to what they stand for (a sanity statement; the tests hold one for every family). -/
def Obligations.TableWordsDecode : Prop :=
  decodeTableWord 16 0x029 = some (.mover 2 9) ∧ decodeTableWord 16 0x05A = some (.movem 1 10) ∧
    decodeTableWord 16 0x267 = some (.add 1 2 7) ∧ decodeTableWord 16 0x33C = some (.sub 0 3 12) ∧
    decodeTableWord 8 0x4 = some .halt ∧ decodeTableWord 8 0x17 = some (.inp 3) ∧ decodeTableWord 8 0x19 = some (.out 1)

/-! ## Faults -/

/-- R158: the first failing check in operand order, range before written before bounds, is the fault reported; and where the operands
fit their fields and the data memory has at least 16 cells, only `UnwrittenRegisterError` is left (the spec's decisions
D2, D6, D10 and D24: log 1, log 21). -/
def Obligations.DispatchFaultPriority : Prop :=
  (∀ (s : State) (r a : Nat),
    (4 ≤ r → ExecFaults (.mover r a) s 10 .invalidRegister 3 (.index r) ∧
      ExecFaults (.movem r a) s 10 .invalidRegister 3 (.index r) ∧ ExecFaults (.inp r) s 6 .invalidRegister 3 (.index r) ∧
      ExecFaults (.out r) s 6 .invalidRegister 3 (.index r)) ∧
    (r < 4 → s.data.size ≤ a → ExecFaults (.mover r a) s 10 .outOfBounds 4 (.address a)) ∧
    (s.regs[r]? = some .unwritten → ExecFaults (.movem r a) s 10 .unwrittenRegister 5 (.index r) ∧
      ExecFaults (.out r) s 6 .unwrittenRegister 5 (.index r)) ∧
    (∀ b, s.regs[r]? = some (.val b) → s.data.size ≤ a → ExecFaults (.movem r a) s 10 .outOfBounds 4 (.address a))) ∧
  (∀ (s : State) (r0 r1 a : Nat) (i : Instr), i = .add r0 r1 a ∨ i = .sub r0 r1 a →
    (4 ≤ r0 → ExecFaults i s 12 .invalidRegister 3 (.index r0)) ∧
    (r0 < 4 → 4 ≤ r1 → ExecFaults i s 12 .invalidRegister 3 (.index r1)) ∧
    (r0 < 4 → s.regs[r1]? = some .unwritten → ExecFaults i s 12 .unwrittenRegister 5 (.index r1)) ∧
    (∀ b, r0 < 4 → s.regs[r1]? = some (.val b) → s.data.size ≤ a → ExecFaults i s 12 .outOfBounds 4 (.address a))) ∧
  (∀ (s : State) (i : Instr) (len code : Nat) (kind : ErrorKind) (info : FaultInfo), s.status ≠ .faulted → i.wf = true →
    16 ≤ s.data.size → ExecFaults i s len kind code info → kind = .unwrittenRegister)

/-- R154, R155: a step that enters `Faulted` writes the status and the record (kind and code of the taxonomy, `pc0`, the kind's info)
and nothing else: no register, no data cell, no event; `pc` stays after a decode fault and is past the instruction after a dispatch
fault (the spec's decisions D6, D10 and D24: log 21). -/
def Obligations.FaultEntryChangesNothingElse : Prop :=
  ∀ s t : State, s.status.isTerminal = false → step s = .next t → t.status = .faulted →
    ∃ kind info, kind.isEngine = true ∧ kind.infoFits info = true ∧
      (((∃ e, s.fetch = .error e) ∧ EntersFaulted s t s.pc kind kind.code info) ∨
        ∃ i n, s.fetch = .ok (i, n) ∧ EntersFaulted s t (s.pc + lenOf i.opcode) kind kind.code info)

/-- R151: decode raises only `TruncatedStreamError` and `UnknownOpcodeError`, the handlers only the other three engine kinds (the
third is the spec's decision D2), and HALT, once decoded, none. -/
def Obligations.FaultKindsByStage : Prop :=
  ∀ s t : State, s.status.isTerminal = false → step s = .next t → t.status = .faulted →
    ∃ f, t.fault = some f ∧
      ((∃ e, s.fetch = .error e) → f.kind = .truncatedStream ∨ f.kind = .unknownOpcode) ∧
      (∀ i n, s.fetch = .ok (i, n) → i ≠ .halt ∧
        (f.kind = .invalidRegister ∨ f.kind = .outOfBounds ∨ f.kind = .unwrittenRegister))

/-- R32: no record at instantiation; a record exactly in `Faulted`, in every reachable state; and no step clears or changes it
(the spec's decision D22). -/
def Obligations.FaultRecordWrittenOnce : Prop :=
  ∀ p image eofBits dataImage,
    (∀ s, instantiate p image eofBits dataImage = .ok s → s.fault = none) ∧
    ∀ s, Reachable p image eofBits dataImage s → (s.fault.isSome = true ↔ s.status = .faulted) ∧
      ∀ t f, step s = .next t → s.fault = some f → t = s

/-- The codes of the taxonomy and of the states (R31, R150), and that no two kinds share one: the spec's decisions D10 and D11; and the kind
of each error of decoding, of the reader, of the packer and encoder, of the assembler and of a load, with its code. Nothing is said of a
caller error of the reader or the packer, for which R150 lists no kind (log 14). -/
def Obligations.CodesAreDistinct : Prop :=
  [ErrorKind.truncatedStream, .unknownOpcode, .invalidRegister, .outOfBounds, .unwrittenRegister].map ErrorKind.code =
      [1, 2, 3, 4, 5] ∧
    [ErrorKind.encoding, .unknownMnemonic, .operandCount, .operandKind, .load].map ErrorKind.code = [16, 17, 18, 19, 32] ∧
    [Status.ready, .running, .halted, .faulted].map Status.code = [0, 1, 2, 3] ∧
    (∀ k l : ErrorKind, k.code = l.code → k = l) ∧
    (∀ e : DecodeError, (∃ need available, e = .truncated need available ∧ DecodeError.kind e = .truncatedStream ∧
        DecodeError.info e = .bits need available) ∨
      ∃ op, e = .unknownOpcode op ∧ DecodeError.kind e = .unknownOpcode ∧ DecodeError.info e = .opcode op) ∧
    (∀ e : ReadError, ReadError.kind e = some .truncatedStream ∧ ReadError.code e = some 1 ↔
      ∃ need available, e = .truncated need available ∧ ReadError.info e = some (.bits need available)) ∧
    (∀ e : WriteError, (WriteError.kind e = some .encoding ∧ WriteError.code e = some 16 ↔ ∃ v w, e = .encoding v w) ∧
      (WriteError.kind e = some .operandCount ∧ WriteError.code e = some 18 ↔ ∃ n m, e = .operandCount n m)) ∧
    (∀ (e : WriteError) (k : ErrorKind), WriteError.kind e = some k → (writeErrorReport e).kind = k) ∧
    (∀ (n : Nat) (info : AsmInfo), (∃ v w, info = .encoding v w ∧ info.kind = .encoding ∧ AsmError.code ⟨n, info⟩ = 16) ∨
      (∃ name, info = .mnemonic name ∧ info.kind = .unknownMnemonic ∧ AsmError.code ⟨n, info⟩ = 17) ∨
      (∃ expected given, info = .count expected given ∧ info.kind = .operandCount ∧ AsmError.code ⟨n, info⟩ = 18) ∨
      ∃ text position, info = .operand text position ∧ info.kind = .operandKind ∧ AsmError.code ⟨n, info⟩ = 19) ∧
    ∀ reason : LoadReason, reason.kind = .load ∧ reason.code = 32

/-! ## Instantiation and invariants -/

/-- R182: the load is refused exactly where one of the conditions holds, with a reason that does; otherwise a core is created; and every
refusal is a `LoadError`, code 32 (the spec's decisions D17 and D10). That a container of a wrong length is refused for its length,
whatever else is wrong with the load, is the model's choice of order (DESIGN CHOICE, log 10). -/
def Obligations.LoadRefusals : Prop :=
  ∀ (p : Config.Params) (image : List Bits8) (eofBits : Nat) (dataImage : List Bits8),
    ((∃ s, instantiate p image eofBits dataImage = .ok s) ↔
      eofBits ≤ 8 * image.length ∧ 8 * image.length ≤ p.progSize ∧ dataImage.length = p.dataSize) ∧
    (∀ reason, instantiate p image eofBits dataImage = .error reason →
      (reason = .eofBeyondImage ∧ 8 * image.length < eofBits) ∨ (reason = .imageTooLarge ∧ p.progSize < 8 * image.length) ∨
        (reason = .dataImageSize ∧ dataImage.length ≠ p.dataSize)) ∧
    (∀ (hi lo : Bits8) (bytes : List Bits8), bytes.length ≠ (256 * hi.toNat + lo.toNat + 7) / 8 →
      instantiateContainer p (hi :: lo :: bytes) dataImage = .error .containerLength) ∧
    (∀ container : List Bits8, container.length < 2 → instantiateContainer p container dataImage = .error .containerLength) ∧
    ∀ reason : LoadReason, reason.kind = .load ∧ reason.code = 32

/-- R184, R180, R185: the value of every piece of state after instantiation (the spec's decisions D2, D3, D15, D16 and D17). -/
def Obligations.ResetValues : Prop :=
  ∀ (p : Config.Params) (image : List Bits8) (eofBits : Nat) (dataImage : List Bits8) (s : State),
    instantiate p image eofBits dataImage = .ok s →
      (∀ i : Nat, i < 4 → s.regs[i]? = some .unwritten) ∧ s.pc = 0 ∧ s.eof = eofBits ∧ s.status = .ready ∧ s.fault = none ∧
      s.trace = [] ∧ s.prog.size = p.progSize ∧ s.data.size = p.dataSize ∧
      (∀ b, s.prog.cells.read b = (imageBits image).getD b 0) ∧
      (∀ a, a < p.dataSize → s.data.cells.read a = dataImage.getD a 0)

/-- R41: bit `7 - j` of image byte `i` becomes program bit `8*i + j`, every bit beyond the image is 0 (the spec's decision D15), and an
image too large is refused. -/
def Obligations.ImageMapsMsbFirst : Prop :=
  ∀ (p : Config.Params) (image : List Bits8) (eofBits : Nat) (dataImage : List Bits8),
    (p.progSize < 8 * image.length → ∃ reason, instantiate p image eofBits dataImage = .error reason) ∧
    ∀ s, instantiate p image eofBits dataImage = .ok s →
      (∀ i j (h : i < image.length), j < 8 →
        s.prog.cells.read (8 * i + j) = BitVec.ofNat 1 (image[i].toNat / 2 ^ (7 - j) % 2)) ∧
      (∀ b, 8 * image.length ≤ b → s.prog.cells.read b = 0)

/-- R76: a stored container of `eofBits` below 2^16 and exactly `ceil(eofBits/8)` image bytes loads that image and that marker
(the spec's decision D3). Nothing is said of the container of any other image, which is the model's choice (log 25). -/
def Obligations.ContainerRoundTrip : Prop :=
  ∀ (p : Config.Params) (image : List Bits8) (eofBits : Nat) (dataImage : List Bits8), eofBits < 65536 →
    image.length = (eofBits + 7) / 8 →
      (makeContainer image eofBits).length = 2 + image.length ∧
      instantiateContainer p (makeContainer image eofBits) dataImage = instantiate p image eofBits dataImage

/-- The reset state of the model is the instantiation of the empty image with a data image of zeros, which is the model's choice
(log 2, log 3); from it the first step halts, since no program is loaded (R122, R184). -/
def Obligations.ResetIsTheEmptyLoad : Prop :=
  instantiate Config.Params.reference [] 0 (List.replicate 256 0) = .ok State.reset ∧
    ∃ t, step State.reset = .next t ∧ t.EndedNormally ∧ t.pc = 0

/-- The invariant holds in the reset state, whose contents are log 2 and log 3. -/
def Obligations.ResetMeetsInvariant : Prop := State.reset.Inv

/-- The invariant of R24, R26, R31, R32, R35, R131, R150, R151 and R154, kept by every step from every state that meets it, reachable
or not, and by every answer of the host. That `Halted` means `pc = eof` is the spec's decision D5, that `Ready` means no register written
its decision D2 (log 1, log 21); that an answer joins a list beside the core is the model's choice (log 4). -/
def Obligations.StepKeepsInvariant : Prop :=
  (∀ s t : State, s.Inv → step s = .next t → t.Inv) ∧ ∀ (s : State) (ans : HostAnswer), s.Inv → (s.deliver ans).Inv

/-- Every state a host can bring a core to meets the invariant, whatever it loads and answers: the clauses of R24, R26, R31, R32,
R35, R131, R150, R151 and R154, of which `Halted` means `pc = eof` is the spec's decision D5 and `Ready` means no register written its
decision D2 (log 1, log 21); the answers waiting are log 4's. -/
def Obligations.ReachableStatesMeetInvariant : Prop :=
  ∀ p image eofBits dataImage s, Reachable p image eofBits dataImage s → s.Inv

/-- R26, R27, R52: the end marker and the program memory stay, in every reachable state, those the load gave. That a bit beyond the image
reads 0 is R41's, the spec's decision D15 (log 21); outside program memory it is the model's (log 9). -/
def Obligations.ProgramIsConstant : Prop :=
  ∀ p image eofBits dataImage s, Reachable p image eofBits dataImage s →
    s.eof = eofBits ∧ 0 ≤ s.eof ∧ s.eof ≤ p.progSize ∧ s.prog.size = p.progSize ∧
    ∀ b, s.prog.cells.read b = (imageBits image).getD b 0

/-- R48: data cells 16 and up keep the value of the data image, and no step depends on them: two cores alike below cell 16 step to two
cores alike below cell 16. -/
def Obligations.HighDataCellsAreInert : Prop :=
  (∀ p image eofBits dataImage s, Reachable p image eofBits dataImage s →
    ∀ a, 16 ≤ a → a < p.dataSize → s.data.cells.read a = dataImage.getD a 0) ∧
  (∀ s s' t : State, s.data.wf → s'.data.wf → AlikeBelow16 s s' → step s = .next t →
    ∃ t', step s' = .next t' ∧ AlikeBelow16 t t')

/-- With the reference parameters only three of the five engine kinds are reachable (R150, fourth column). -/
def Obligations.ReachableFaultKinds : Prop :=
  ∀ image eofBits dataImage s f, Reachable Config.Params.reference image eofBits dataImage s → s.fault = some f →
    f.kind = .truncatedStream ∨ f.kind = .unknownOpcode ∨ f.kind = .unwrittenRegister

/-- R10: `pc` fits the derived width, which is 9 bits at the reference size. -/
def Obligations.PcFitsItsWidth : Prop :=
  Config.pcWidth Config.Params.reference.progSize = 9 ∧
    ∀ s : State, s.Inv → s.pc < 2 ^ Config.pcWidth s.prog.size ∧ s.eof < 2 ^ Config.pcWidth s.prog.size

/-! ## The packer and the unpacker -/

/-- R60: a write of an allowed width and of a value that fits appends its bits, most significant first, to the stream, whose full bytes
are emitted; one of a value that does not fit is an `EncodingError`, and gives no new packer. -/
def Obligations.WriterAppendsMsbFirst : Prop :=
  ∀ (wr : BitWriter) (v w : Nat), wr.acc.length < 8 →
    (1 ≤ w → w ≤ 32 → v < 2 ^ w → ∃ wr', wr.write v w = .ok wr' ∧ wr'.acc.length < 8 ∧
      wr'.bits = wr.bits ++ (List.range w).map (fun k => BitVec.ofNat 1 (v / 2 ^ (w - 1 - k) % 2)) ∧
      wr.emitted <+: wr'.emitted) ∧
    (1 ≤ w → w ≤ 32 → 2 ^ w ≤ v → wr.write v w = .error (.encoding v w))

/-- R61: a flush pads a partial byte on the right with zeros and emits it; a second flush emits nothing. -/
def Obligations.FlushPadsOnce : Prop :=
  ∀ wr : BitWriter, wr.acc.length < 8 →
    wr.flush.acc = [] ∧ wr.flush.flush = wr.flush ∧
    (wr.acc = [] → wr.flush = wr) ∧
    (wr.acc ≠ [] → wr.flush.emitted.length = wr.emitted.length + 1 ∧
      imageBits wr.flush.emitted = wr.bits ++ List.replicate (8 - wr.acc.length) 0)

/-- R62: a read of an allowed width takes the first bits of the stream, most significant first; with too few left it fails and gives no
new reader (that it then consumes nothing is the spec's decision D4). -/
def Obligations.ReaderTakesMsbFirst : Prop :=
  ∀ (rd : BitReader) (w : Nat), 1 ≤ w → w ≤ 32 →
    (rd.bits.length < w → rd.read w = .error (.truncated w rd.bits.length)) ∧
    (w ≤ rd.bits.length → ∃ v rd', rd.read w = .ok (v, rd') ∧ v < 2 ^ w ∧ fieldBits v w = rd.bits.take w ∧
      rd'.bits = rd.bits.drop w)

/-- What the packer packs, the unpacker unpacks: fields that fit, written in order and flushed, are read back in order (R60 to R62). -/
def Obligations.ReaderUndoesWriter : Prop :=
  ∀ fs : List (Nat × Nat), (∀ f ∈ fs, 1 ≤ f.2 ∧ f.2 ≤ 32 ∧ f.1 < 2 ^ f.2) →
    ∃ wr, BitWriter.empty.writeFields fs = .ok wr ∧
      ∃ rd, (BitReader.ofBytes wr.flush.emitted).readFields (fs.map Prod.snd) = .ok (fs.map Prod.fst, rd)

/-! ## The assembler -/

/-- R75, R86: the image is the encodings of the accepted instructions, which are those of the source statements that assemble, in source
order, padded with zeros to a byte boundary; `eofBits` is the sum of their lengths; the image has `ceil(eofBits/8)` bytes. That the other
statements are skipped is the spec's decision D19 (log 21). -/
def Obligations.ImageIsTheAcceptedEncodings : Prop :=
  ∀ source image eofBits accepted errors, assemble source = .assembled image eofBits accepted errors →
    accepted = source.filterMap statementInstr ∧
    eofBits = (accepted.map (fun i => lenOf i.opcode)).sum ∧ image.length = (eofBits + 7) / 8 ∧
    ∃ codes : List (List Bit), accepted.map encode = codes.map Except.ok ∧
      imageBits image = codes.flatten ++ List.replicate (8 * image.length - eofBits) 0

/-- An assembled image, loaded into a core large enough, is exactly the accepted instructions: it starts at offset 0, each decodes at the
sum of the lengths before it, and the end marker is the sum of them all, so that no padding bit is decoded (R74, R75, R86, R180; that the
end marker is a bit count is the spec's decision D3). -/
def Obligations.LoadedImageDecodesToSource : Prop :=
  ∀ source image eofBits accepted errors p dataImage, assemble source = .assembled image eofBits accepted errors →
    8 * image.length ≤ p.progSize → dataImage.length = p.dataSize →
    ∃ s, instantiate p image eofBits dataImage = .ok s ∧ s.pc = 0 ∧ s.eof = (accepted.map (fun i => lenOf i.opcode)).sum ∧
      ∀ before i after, accepted = before ++ i :: after →
        decode s.progBit s.eof (before.map (fun j => lenOf j.opcode)).sum =
          .ok (i, ((before ++ [i]).map (fun j => lenOf j.opcode)).sum)

/-- R82: a mnemonic that is not in the table, letter for letter, aborts the whole run with no image; nothing else does; and the first
such mnemonic is reported, with the number of its statement (no image and the number are the spec's decision D19; log 12, log 13). -/
def Obligations.UnknownMnemonicAborts : Prop :=
  ∀ source : List (List String),
    ((∃ errors, assemble source = .aborted errors) ↔
      ∃ name texts, name :: texts ∈ source ∧ name ∉ ["MOVER", "MOVEM", "ADD", "SUB", "HALT", "IN", "OUT"]) ∧
    ∀ errors, assemble source = .aborted errors →
      ∃ before name texts after, source = before ++ (name :: texts) :: after ∧
        name ∉ ["MOVER", "MOVEM", "ADD", "SUB", "HALT", "IN", "OUT"] ∧
        (∀ n ts, n :: ts ∈ before → n ∈ ["MOVER", "MOVEM", "ADD", "SUB", "HALT", "IN", "OUT"]) ∧
        ({ statement := before.length + 1, info := .mnemonic name } : AsmError) ∈ errors

/-- R80, R83, R85, R86: a run with no unknown mnemonic accepts exactly the statements that assemble, in source order, skips the blank
ones, and reports each of the others with its statement number, counted from 1 (the spec's decision D19; log 13). -/
def Obligations.FailedStatementsAreSkipped : Prop :=
  ∀ source image eofBits accepted errors, assemble source = .assembled image eofBits accepted errors →
    accepted = source.filterMap statementInstr ∧
    ∀ n info, ({ statement := n, info := info } : AsmError) ∈ errors ↔
      ∃ k name texts, n = k + 1 ∧ source[k]? = some (name :: texts) ∧ assembleStatement name texts = .error info

/-- R83, R84, R85: `R` and one digit is a register reference, decimal digits are an address, and nothing else is an operand; then, for
every mnemonic of the table: a wrong operand count is refused; else the first operand of another form or kind than the table declares;
else the first value that does not fit its width; else the statement is the instruction with those values. The forms are the spec's decision
D18, the order of the last two checks log 11. -/
def Obligations.StatementsAssembleByTheTable : Prop :=
  (∀ (cs : List Char) (n : Nat),
    (classifyChars cs = some (.reg n) ↔ ∃ d, d.isDigit = true ∧ cs = ['R', d] ∧ n = digitValue d) ∧
    (classifyChars cs = some (.addr n) ↔ cs ≠ [] ∧ (∀ c ∈ cs, c.isDigit = true) ∧ n = decimalValue cs)) ∧
  ['0', '1', '2', '3', '4', '5', '6', '7', '8', '9'].map digitValue = [0, 1, 2, 3, 4, 5, 6, 7, 8, 9] ∧
  (∀ d : Char, d.isDigit = true → d ∈ ['0', '1', '2', '3', '4', '5', '6', '7', '8', '9']) ∧
  decimalValue [] = 0 ∧ (∀ (cs : List Char) (d : Char), decimalValue (cs ++ [d]) = 10 * decimalValue cs + digitValue d) ∧
  ∀ row ∈ opcodeTable, ∀ texts : List String,
    (texts.length ≠ row.operands.length →
      assembleStatement row.mnemonic texts = .error (.count row.operands.length texts.length)) ∧
    (∀ k text, texts.length = row.operands.length → BadOperandAt row texts k text → (∀ j < k, ∀ u, ¬ BadOperandAt row texts j u) →
      assembleStatement row.mnemonic texts = .error (.operand text k)) ∧
    ∀ values : List Nat, List.Forall₂ Operand.Spells (row.operands.zip values) texts → values.length = row.operands.length →
      (∀ (before : List (Nat × Nat)) (v w : Nat) (after : List (Nat × Nat)),
        values.zip (row.operands.map Prod.snd) = before ++ (v, w) :: after → (∀ f ∈ before, f.1 < 2 ^ f.2) → 2 ^ w ≤ v →
        assembleStatement row.mnemonic texts = .error (.encoding v w)) ∧
      ((∀ f ∈ values.zip (row.operands.map Prod.snd), f.1 < 2 ^ f.2) →
        ∃ i, assembleStatement row.mnemonic texts = .ok i ∧ i.wf = true ∧ i.opcode = row.opcode ∧ i.operands = values)

/-- R88: a line of the debug mirror is the instruction's bits as digits and a line feed; the pretty one has one space between adjacent
fields, each of exactly its width; the mirror of a run is one line for each emitted instruction (the spec's decision
D23; log 20). -/
def Obligations.MirrorShowsTheEncoding : Prop :=
  (∀ (i : Instr) (bits : List Bit), encode i = .ok bits →
    mirrorLine false i = bits.map bitDigit ++ ['\n'] ∧
    ∃ groups : List (List Char), mirrorLine true i = [' '].intercalate groups ++ ['\n'] ∧ groups.flatten = bits.map bitDigit ∧
      groups.map List.length = 4 :: operandWidths i.opcode) ∧
  ∀ pretty image eofBits accepted errors,
    mirror pretty (.assembled image eofBits accepted errors) = (accepted.map (mirrorLine pretty)).flatten
end

