-- ==== Sys2Proof/Laws/Arithmetic.lean ====
section
/-!
SUPPORT. The integer views of a pattern are those of `BitVec`, and the wrap-around operations are its addition and subtraction.
-/

namespace Sys2Proof.Machine

theorem u8_eq (b : Bits8) : u8 b = b.toNat := rfl

theorem u8_lt (b : Bits8) : u8 b < 256 := b.isLt

theorem int8_range (b : Bits8) : -128 ≤ int8 b ∧ int8 b ≤ 127 := by
  have := u8_lt b
  unfold int8
  split <;> omega

theorem int8_emod (b : Bits8) : int8 b % 256 = (u8 b : Int) := by
  have := u8_lt b
  unfold int8
  split <;> omega

theorem int8_eq_toInt (b : Bits8) : int8 b = b.toInt := by
  have := u8_lt b
  have h : b.toInt = if 2 * u8 b < 256 then (u8 b : Int) else (u8 b : Int) - 256 := rfl
  rw [h]
  unfold int8
  split <;> split <;> omega

theorem u8_bits8 (n : Int) : (u8 (bits8 n) : Int) = n % 256 := by
  simp only [u8_eq, bits8, BitVec.toNat_ofNat]
  omega

/-- Two patterns with the same unsigned value are the same pattern. -/
theorem u8_inj {a b : Bits8} (h : u8 a = u8 b) : a = b := BitVec.eq_of_toNat_eq h

/-- Integers alike modulo 256 have the same pattern. -/
theorem bits8_congr {m n : Int} (h : m % 256 = n % 256) : bits8 m = bits8 n := by
  simp only [bits8, h]

@[simp] theorem bits8_u8 (b : Bits8) : bits8 (u8 b) = b := by
  apply u8_inj
  have := u8_bits8 (u8 b)
  have := u8_lt b
  omega

@[simp] theorem bits8_int8 (b : Bits8) : bits8 (int8 b) = b := by
  rw [bits8_congr (n := (u8 b : Int)) (by rw [int8_emod]; have := u8_lt b; omega), bits8_u8]

theorem add8_eq (s d : Bits8) : add8 s d = s + d := by
  apply u8_inj
  have := u8_bits8 ((u8 s : Int) + (u8 d : Int))
  simp only [add8]
  simp only [u8_eq, BitVec.toNat_add] at *
  omega

theorem sub8_eq (s d : Bits8) : sub8 s d = s - d := by
  apply u8_inj
  have := u8_bits8 ((u8 s : Int) - (u8 d : Int))
  have := s.isLt
  have := d.isLt
  simp only [sub8]
  simp only [u8_eq, BitVec.toNat_sub] at *
  omega

/-- What the signed view of a pattern made from an integer is. -/
theorem int8_bits8 (n : Int) : int8 (bits8 n) = if n % 256 < 128 then n % 256 else n % 256 - 256 := by
  have h := u8_bits8 n
  simp only [int8]
  split <;> split <;> omega

end Sys2Proof.Machine
end

