-- ==== Sys2Proof/Laws/BitIO.lean ====
section
/-!
SUPPORT. The bit order: fields, bytes and numbers; what the packer and the unpacker do to the stream of bits they stand for.
-/

namespace Sys2Proof

@[simp] theorem fieldBits_length (v w : Nat) : (fieldBits v w).length = w := by
  induction w with
  | zero => rfl
  | succ w ih => simp [fieldBits, ih]

/-- Only the low bits of a value matter to its field. -/
theorem fieldBits_mod (v w k : Nat) (h : w ≤ k) : fieldBits (v % 2 ^ k) w = fieldBits v w := by
  induction w with
  | zero => rfl
  | succ w ih =>
    simp only [fieldBits]
    rw [ih (by omega)]
    congr 1
    apply BitVec.eq_of_toNat_eq
    simp only [BitVec.toNat_ofNat]
    have hk : 2 ^ k = 2 ^ w * (2 ^ 1 * 2 ^ (k - (w + 1))) := by
      rw [← pow_add, ← pow_add]
      congr 1
      omega
    rw [hk, Nat.mod_mul_right_div_self, Nat.mod_mul_right_mod]

/-- Fields side by side are one field: no padding (30_encoding.md R64). -/
theorem fieldBits_append (u v m n : Nat) (h : v < 2 ^ n) :
    fieldBits u m ++ fieldBits v n = fieldBits (u * 2 ^ n + v) (m + n) := by
  induction m with
  | zero =>
    rw [← fieldBits_mod (u * 2 ^ n + v) (0 + n) n (by omega)]
    simp [fieldBits, Nat.mod_eq_of_lt h]
  | succ m ih =>
    rw [show m + 1 + n = (m + n) + 1 by omega]
    simp only [fieldBits, List.cons_append, ih]
    congr 2
    rw [pow_add, Nat.mul_comm (2 ^ m), ← Nat.div_div_eq_div_mul, Nat.mul_comm u, Nat.mul_add_div (by positivity),
      Nat.div_eq_of_lt h, Nat.add_zero]

@[simp] theorem bitsValueFrom_nil (acc : Nat) : bitsValueFrom acc [] = acc := rfl

@[simp] theorem bitsValueFrom_cons (acc : Nat) (b : Bit) (bits : List Bit) :
    bitsValueFrom acc (b :: bits) = bitsValueFrom (2 * acc + b.toNat) bits := rfl

theorem bitsValueFrom_eq (acc : Nat) (bits : List Bit) :
    bitsValueFrom acc bits = acc * 2 ^ bits.length + bitsValue bits := by
  induction bits generalizing acc with
  | nil => simp [bitsValue]
  | cons b bits ih =>
    rw [bitsValue, bitsValueFrom_cons, bitsValueFrom_cons, ih, ih (2 * 0 + b.toNat), List.length_cons, pow_succ]
    ring

theorem bitsValue_append (xs ys : List Bit) :
    bitsValue (xs ++ ys) = bitsValue xs * 2 ^ ys.length + bitsValue ys := by
  rw [bitsValue, bitsValueFrom, List.foldl_append]
  exact bitsValueFrom_eq _ _

theorem bitsValue_lt (bits : List Bit) : bitsValue bits < 2 ^ bits.length := by
  induction bits with
  | nil => simp [bitsValue]
  | cons b bits ih =>
    rw [bitsValue, bitsValueFrom_cons, bitsValueFrom_eq, List.length_cons, pow_succ]
    have hb : b.toNat < 2 := b.isLt
    have h1 : (2 * 0 + b.toNat) * 2 ^ bits.length ≤ 1 * 2 ^ bits.length := Nat.mul_le_mul_right _ (by omega)
    omega

theorem bit_ofNat_toNat (b : Bit) : BitVec.ofNat 1 b.toNat = b := by
  apply BitVec.eq_of_toNat_eq
  simp

/-- The number a field spells. -/
theorem bitsValue_fieldBits (v w : Nat) : bitsValue (fieldBits v w) = v % 2 ^ w := by
  induction w with
  | zero => simp [fieldBits, bitsValue, Nat.mod_one]
  | succ w ih =>
    simp only [fieldBits]
    have e := Nat.mod_mul (x := v) (a := 2 ^ w) (b := 2)
    rw [bitsValue, bitsValueFrom_cons, bitsValueFrom_eq, ih, fieldBits_length, BitVec.toNat_ofNat, pow_succ 2 w, e]
    simp only [Nat.mul_zero, Nat.zero_add, Nat.pow_one]
    rw [Nat.mul_comm, Nat.add_comm]

/-- The field of the number that bits spell is those bits. -/
theorem fieldBits_bitsValue (bits : List Bit) : fieldBits (bitsValue bits) bits.length = bits := by
  induction bits with
  | nil => rfl
  | cons b bits ih =>
    have hv : bitsValue (b :: bits) = b.toNat * 2 ^ bits.length + bitsValue bits := by
      rw [bitsValue, bitsValueFrom_cons, bitsValueFrom_eq, Nat.mul_zero, Nat.zero_add]
    have hlt := bitsValue_lt bits
    rw [List.length_cons]
    simp only [fieldBits]
    congr 1
    · rw [hv, Nat.mul_comm, Nat.mul_add_div (by positivity), Nat.div_eq_of_lt hlt, Nat.add_zero, bit_ofNat_toNat]
    · rw [hv, ← fieldBits_mod _ _ _ (le_refl _), Nat.mul_add_mod_self_right, Nat.mod_eq_of_lt hlt, ih]

@[simp] theorem byteBits_length (b : Bits8) : (byteBits b).length = 8 := fieldBits_length _ _

theorem byteBits_byteOfBits (bits : List Bit) (h : bits.length = 8) : byteBits (byteOfBits bits) = bits := by
  have hlt := bitsValue_lt bits
  rw [h] at hlt
  rw [byteBits, byteOfBits, BitVec.toNat_ofNat, Nat.mod_eq_of_lt hlt]
  exact h ▸ fieldBits_bitsValue bits

@[simp] theorem imageBits_nil : imageBits [] = [] := rfl

@[simp] theorem imageBits_cons (b : Bits8) (bs : List Bits8) : imageBits (b :: bs) = byteBits b ++ imageBits bs := rfl

@[simp] theorem imageBits_append (xs ys : List Bits8) : imageBits (xs ++ ys) = imageBits xs ++ imageBits ys := by
  simp [imageBits]

@[simp] theorem imageBits_length (bs : List Bits8) : (imageBits bs).length = 8 * bs.length := by
  induction bs with
  | nil => rfl
  | cons b bs ih =>
    simp only [imageBits_cons, List.length_append, byteBits_length, ih, List.length_cons]
    omega

/-- The accumulator holds less than a byte: the packer's own invariant. -/
abbrev BitWriter.Good (wr : BitWriter) : Prop := wr.acc.length < 8

theorem pushBit_good {wr : BitWriter} (h : wr.Good) (b : Bit) : (wr.pushBit b).Good := by
  simp only [BitWriter.Good, BitWriter.pushBit] at *
  split
  · simp
  · simp only [List.length_append, List.length_singleton]
    omega

theorem pushBit_bits (wr : BitWriter) (b : Bit) : (wr.pushBit b).bits = wr.bits ++ [b] := by
  simp only [BitWriter.pushBit]
  split
  · rename_i h
    simp [BitWriter.bits, byteBits_byteOfBits _ (show (wr.acc ++ [b]).length = 8 by simpa using h)]
  · simp [BitWriter.bits]

theorem pushBits_good {wr : BitWriter} (h : wr.Good) (bs : List Bit) : (wr.pushBits bs).Good := by
  induction bs generalizing wr with
  | nil => exact h
  | cons b bs ih => exact ih (pushBit_good h b)

theorem pushBits_bits (wr : BitWriter) (bs : List Bit) : (wr.pushBits bs).bits = wr.bits ++ bs := by
  induction bs generalizing wr with
  | nil => simp [BitWriter.pushBits]
  | cons b bs ih =>
    have h : wr.pushBits (b :: bs) = (wr.pushBit b).pushBits bs := rfl
    rw [h, ih, pushBit_bits]
    simp

theorem pushBits_append (wr : BitWriter) (xs ys : List Bit) :
    wr.pushBits (xs ++ ys) = (wr.pushBits xs).pushBits ys := by
  simp [BitWriter.pushBits, List.foldl_append]

/-- A write that succeeds appends exactly the field's bits. -/
theorem write_ok {wr wr' : BitWriter} {v : Int} {w : Nat} (h : wr.write v w = .ok wr') :
    0 ≤ v ∧ v.toNat < 2 ^ w ∧ widthOk w = true ∧ wr' = wr.pushBits (fieldBits v.toNat w) := by
  simp only [BitWriter.write] at h
  split at h
  · cases h
  · rename_i hw
    split at h
    · cases h
    · rename_i hn
      split at h
      · cases h
      · rename_i hv
        cases h
        exact ⟨by omega, by omega, by simpa using hw, rfl⟩

theorem write_of_lt (wr : BitWriter) {v w : Nat} (hw : widthOk w = true) (hv : v < 2 ^ w) :
    wr.write v w = .ok (wr.pushBits (fieldBits v w)) := by
  simp [BitWriter.write, hw, Nat.not_le.mpr hv]

/-- Flushing pads with zeros to a byte boundary and leaves no partial byte. -/
theorem flush_bits {wr : BitWriter} (h : wr.Good) :
    wr.flush.bits = wr.bits ++ List.replicate ((8 - wr.acc.length) % 8) 0 ∧ wr.flush.acc = [] := by
  simp only [BitWriter.Good] at h
  simp only [BitWriter.flush]
  split
  · rename_i h0
    have : wr.acc = [] := List.length_eq_zero_iff.mp h0
    simp [this]
  · rename_i h0
    have h8 : (wr.acc ++ List.replicate (8 - wr.acc.length) (0 : Bit)).length = 8 := by
      simp only [List.length_append, List.length_replicate]
      omega
    rw [Nat.mod_eq_of_lt (by omega)]
    refine ⟨?_, rfl⟩
    simp only [BitWriter.bits, imageBits_append, imageBits_cons, imageBits_nil, List.append_nil,
      byteBits_byteOfBits _ h8, List.append_assoc]

@[simp] theorem reader_bits_length (rd : BitReader) : rd.bits.length = rd.remaining := by
  simp [BitReader.bits, BitReader.remaining]

/-- The next bit is the first of the stream, and the rest of the stream is left. -/
theorem nextBit_of_bits {rd : BitReader} {b : Bit} {bs : List Bit} (h : rd.bits = b :: bs) :
    ∃ rd', rd.nextBit = some (b, rd') ∧ rd'.bits = bs := by
  obtain ⟨buf, src⟩ := rd
  simp only [BitReader.bits] at h
  cases buf with
  | cons c buf =>
    simp only [List.cons_append, List.cons.injEq] at h
    exact ⟨⟨buf, src⟩, by simp [BitReader.nextBit, h.1], h.2⟩
  | nil =>
    cases src with
    | nil => simp at h
    | cons byte src =>
      cases hb : byteBits byte with
      | nil =>
        have := byteBits_length byte
        simp [hb] at this
      | cons c rest =>
        simp only [imageBits_cons, hb, List.nil_append, List.cons_append, List.cons.injEq] at h
        exact ⟨⟨rest, src⟩, by simp [BitReader.nextBit, hb, h.1], h.2⟩

/-- Gathering as many bits as a list at the head of the stream has takes exactly that list. -/
theorem gather_of_bits {rd : BitReader} {xs ys : List Bit} (v : Nat) (h : rd.bits = xs ++ ys) :
    ∃ rd', rd.gather v xs.length = (bitsValueFrom v xs, rd') ∧ rd'.bits = ys := by
  induction xs generalizing rd v with
  | nil => exact ⟨rd, rfl, h⟩
  | cons b xs ih =>
    obtain ⟨rd1, h1, h2⟩ := nextBit_of_bits h
    obtain ⟨rd2, h3, h4⟩ := ih (2 * v + b.toNat) h2
    exact ⟨rd2, by simp [BitReader.gather, h1, h3], h4⟩

/-- A read takes the first `w` bits of the stream. -/
theorem read_of_bits {rd : BitReader} {xs ys : List Bit} (hw : widthOk xs.length = true) (h : rd.bits = xs ++ ys) :
    ∃ rd', rd.read xs.length = .ok (bitsValue xs, rd') ∧ rd'.bits = ys := by
  obtain ⟨rd', h1, h2⟩ := gather_of_bits 0 h
  have hl : xs.length ≤ rd.remaining := by
    rw [← reader_bits_length, h, List.length_append]
    omega
  exact ⟨rd', by simp [BitReader.read, hw, Nat.not_lt.mpr hl, h1, bitsValue], h2⟩

end Sys2Proof
end

