-- ==== Sys2Proof/Laws/Codec.lean ====
section
/-!
SUPPORT. One lemma each for what `field`, `decode`, `checkFields` and `encode` can answer.
-/

namespace Sys2Proof

@[simp] theorem regFits_iff (r : Nat) : regFits r = true ↔ r < 4 := decide_eq_true_iff

@[simp] theorem addrFits_iff (a : Nat) : addrFits a = true ↔ a < 16 := decide_eq_true_iff

theorem field_lt (P : Nat → Bit) (p w : Nat) : field P p w < 2 ^ w := by
  induction w with
  | zero => simp [field]
  | succ w ih =>
    have hb : (P (p + w)).toNat < 2 := (P (p + w)).isLt
    simp only [field, pow_succ]
    omega

/-- A field depends on its own bits only. -/
theorem field_congr {P Q : Nat → Bit} {p q w : Nat} (h : ∀ k < w, P (p + k) = Q (q + k)) : field P p w = field Q q w := by
  induction w with
  | zero => rfl
  | succ w ih => simp only [field, ih (fun k hk => h k (by omega)), h w (by omega)]

/-- A field is the number its bits spell (30_encoding.md R66). -/
theorem field_eq_bitsValue (P : Nat → Bit) (p w : Nat) :
    field P p w = bitsValue ((List.range w).map (fun k => P (p + k))) := by
  induction w with
  | zero => rfl
  | succ w ih =>
    rw [List.range_succ, List.map_append, bitsValue_append, ← ih]
    simp [field, bitsValue, Nat.mul_comm]

/-- Bits lying in program memory from offset `p` on. -/
def LiesAt (P : Nat → Bit) (p : Nat) (bits : List Bit) : Prop := ∀ k < bits.length, P (p + k) = bits.getD k 0

theorem liesAt_bitsAt (start : Nat) (bits : List Bit) : LiesAt (bitsAt start bits) start bits := by
  intro k _
  simp [bitsAt]

theorem LiesAt.left {P : Nat → Bit} {p : Nat} {xs ys : List Bit} (h : LiesAt P p (xs ++ ys)) : LiesAt P p xs := by
  intro k hk
  rw [h k (by rw [List.length_append]; omega), List.getD_append _ _ _ _ hk]

theorem LiesAt.right {P : Nat → Bit} {p : Nat} {xs ys : List Bit} (h : LiesAt P p (xs ++ ys)) :
    LiesAt P (p + xs.length) ys := by
  intro k hk
  rw [Nat.add_assoc, h _ (by rw [List.length_append]; omega), List.getD_append_right _ _ _ _ (by omega),
    Nat.add_sub_cancel_left]

theorem LiesAt.field {P : Nat → Bit} {p : Nat} {bits : List Bit} (h : LiesAt P p bits) :
    field P p bits.length = bitsValue bits := by
  rw [field_eq_bitsValue]
  congr 1
  apply List.ext_getElem (by simp)
  intro k h1 h2
  have := h k h2
  simpa [List.getD_eq_getElem?_getD, h2] using this

/-- The bits of a field lying in program memory are read back. -/
theorem LiesAt.fieldBits {P : Nat → Bit} {p v w : Nat} (h : LiesAt P p (fieldBits v w)) (hv : v < 2 ^ w) :
    Sys2Proof.field P p w = v := by
  have := h.field
  rwa [fieldBits_length, bitsValue_fieldBits, Nat.mod_eq_of_lt hv] at this

theorem opcode_lt (i : Instr) : i.opcode < 7 := by cases i <;> simp [Instr.opcode]

theorem length_ge (i : Instr) : 4 ≤ i.length := by cases i <;> simp [Instr.length, Instr.opcode, lenOf]

theorem length_le (i : Instr) : i.length ≤ 12 := by cases i <;> simp [Instr.length, Instr.opcode, lenOf]

/-- Reading operand fields gives a well-formed instruction of that opcode. -/
theorem decodeFields_some {P : Nat → Bit} {pc op : Nat} {i : Instr} (h : decodeFields P pc op = some i) :
    i.opcode = op ∧ i.wf = true := by
  have h2 := field_lt P (pc + 4) 2
  have h4 := field_lt P (pc + 6) 4
  have h6 := field_lt P (pc + 6) 2
  have h8 := field_lt P (pc + 8) 4
  simp only [decodeFields] at h
  split at h <;> first
    | cases h; done
    | (cases h
       simp [Instr.opcode, Instr.wf]
       try omega)

theorem decodeFields_none {P : Nat → Bit} {pc op : Nat} : decodeFields P pc op = none ↔ 6 < op := by
  simp only [decodeFields]
  split <;> simp_all
  omega

/-- Operand fields depend on the instruction's own bits only. -/
theorem decodeFields_congr {P Q : Nat → Bit} {pc qc op : Nat} (h : ∀ k < lenOf op, P (pc + k) = Q (qc + k)) :
    decodeFields P pc op = decodeFields Q qc op := by
  have hf : ∀ d w, d + w ≤ lenOf op → field P (pc + d) w = field Q (qc + d) w := by
    intro d w hd
    apply field_congr
    intro k hk
    rw [Nat.add_assoc, Nat.add_assoc]
    exact h _ (by omega)
  unfold decodeFields
  split <;> simp only [lenOf] at hf <;> first
    | rfl
    | rw [hf 4 2 (by omega), hf 6 4 (by omega)]
    | rw [hf 4 2 (by omega), hf 6 2 (by omega), hf 8 4 (by omega)]
    | rw [hf 4 2 (by omega)]

/-- Everything an answer of the decoder says (R67). -/
theorem decode_ok {P : Nat → Bit} {eof pc n : Nat} {i : Instr} :
    decode P eof pc = .ok (i, n) ↔
      decodeFields P pc (field P pc 4) = some i ∧ n = pc + i.length ∧ i.length ≤ eof - pc := by
  constructor
  · intro h
    simp only [decode] at h
    split at h
    · cases h
    · split at h
      · cases h
      · rename_i j hj
        split at h
        · cases h
        · cases h
          have := (decodeFields_some hj).1
          refine ⟨hj, ?_, ?_⟩ <;> simp only [Instr.length, this]
          omega
  · rintro ⟨h1, h2, h3⟩
    have := length_ge i
    have ho := (decodeFields_some h1).1
    simp only [Instr.length, ho] at *
    simp only [decode, h1, if_neg (show ¬ eof - pc < 4 by omega), if_neg (show ¬ eof - pc < lenOf (field P pc 4) by omega), h2]

/-- A decoded instruction is well formed, and its trailing offset is inside the program. -/
theorem decode_wf {P : Nat → Bit} {eof pc n : Nat} {i : Instr} (h : decode P eof pc = .ok (i, n)) :
    i.wf = true ∧ n = pc + i.length ∧ n ≤ eof := by
  obtain ⟨h1, h2, h3⟩ := decode_ok.mp h
  have := length_ge i
  exact ⟨(decodeFields_some h1).2, h2, by omega⟩

/-- What decodes from a stream decodes from every place its bits lie at, as long as the program reaches past it. -/
theorem decode_transfer {P Q : Nat → Bit} {e f p q n : Nat} {i : Instr} (h : decode P e p = .ok (i, n))
    (hb : ∀ k < i.length, Q (q + k) = P (p + k)) (hf : i.length ≤ f - q) : decode Q f q = .ok (i, q + i.length) := by
  obtain ⟨h1, _, _⟩ := decode_ok.mp h
  have ho := (decodeFields_some h1).1
  have h4 := length_ge i
  have hop : field Q q 4 = field P p 4 := field_congr (fun k hk => hb k (by omega))
  refine decode_ok.mpr ⟨?_, rfl, hf⟩
  rw [hop, ← h1]
  exact decodeFields_congr (fun k hk => hb k (by rw [Instr.length, ho]; exact hk))

/-- A value does not fit its width: it is negative or too large. -/
def Misfits (f : Int × Nat) : Prop := f.1 < 0 ∨ ((2 ^ f.2 : Nat) : Int) ≤ f.1

theorem misfits_natCast (v w : Nat) : Misfits ((v : Int), w) ↔ 2 ^ w ≤ v := by
  simp only [Misfits]
  omega

theorem checkFields_ok {fs : List (Int × Nat)} : checkFields fs = .ok () ↔ ∀ f ∈ fs, ¬ Misfits f := by
  induction fs with
  | nil => simp [checkFields]
  | cons f fs ih =>
    obtain ⟨v, w⟩ := f
    simp only [checkFields, List.mem_cons, forall_eq_or_imp]
    split
    · rename_i h
      constructor
      · intro e
        cases e
      · rintro ⟨e, _⟩
        exact absurd h e
    · rename_i h
      rw [ih]
      exact ⟨fun e => ⟨h, e⟩, fun e => e.2⟩

/-- The check fails exactly with the first value that does not fit. -/
theorem checkFields_error {fs : List (Int × Nat)} {e : WriteError} :
    checkFields fs = .error e ↔
      ∃ before v w after, fs = before ++ (v, w) :: after ∧ e = .encoding v w ∧ Misfits (v, w) ∧ ∀ f ∈ before, ¬ Misfits f := by
  induction fs with
  | nil => simp [checkFields]
  | cons f fs ih =>
    obtain ⟨v, w⟩ := f
    simp only [checkFields]
    split
    · rename_i hv
      constructor
      · intro h
        cases h
        exact ⟨[], v, w, fs, rfl, rfl, hv, by simp⟩
      · rintro ⟨b, v', w', a, h1, rfl, h3, h4⟩
        cases b with
        | nil =>
          cases h1
          rfl
        | cons g b =>
          cases h1
          exact absurd hv (h4 (v, w) (by simp))
    · rename_i hv
      rw [ih]
      constructor
      · rintro ⟨b, v', w', a, rfl, h2, h3, h4⟩
        refine ⟨(v, w) :: b, v', w', a, rfl, h2, h3, ?_⟩
        simp only [List.mem_cons, forall_eq_or_imp]
        exact ⟨hv, h4⟩
      · rintro ⟨b, v', w', a, h1, h2, h3, h4⟩
        cases b with
        | nil =>
          cases h1
          exact absurd h3 hv
        | cons g b =>
          cases h1
          exact ⟨b, v', w', a, rfl, h2, h3, fun f hf => h4 f (by simp [hf])⟩

/-- Everything the encoder's checks can answer (30_encoding.md R65). -/
theorem encodeFields_cases (row : OpcodeRow) (vs : List Int) :
    (vs.length ≠ row.operands.length ∧ encodeFields row vs = .error (.operandCount row.operands.length vs.length)) ∨
    (vs.length = row.operands.length ∧ ∃ before v w after, vs.zip row.widths = before ++ (v, w) :: after ∧
      Misfits (v, w) ∧ (∀ f ∈ before, ¬ Misfits f) ∧ encodeFields row vs = .error (.encoding v w)) ∨
    (vs.length = row.operands.length ∧ (∀ f ∈ vs.zip row.widths, ¬ Misfits f) ∧
      encodeFields row vs = .ok ((row.opcode, Config.opcodeWidth) :: (vs.map Int.toNat).zip row.widths)) := by
  by_cases hl : vs.length = row.operands.length
  · right
    cases hc : checkFields (vs.zip row.widths) with
    | error e =>
      obtain ⟨b, v, w, a, h1, rfl, h3, h4⟩ := checkFields_error.mp hc
      exact .inl ⟨hl, b, v, w, a, h1, h3, h4, by simp [encodeFields, hl, hc]⟩
    | ok u => exact .inr ⟨hl, checkFields_ok.mp hc, by simp [encodeFields, hl, hc]⟩
  · exact .inl ⟨hl, by simp [encodeFields, hl]⟩

/-- The operand fields of each instruction. -/
theorem operandFields_eq (i : Instr) : i.operandFields = match i with
    | .mover r a => [(r, 2), (a, 4)]
    | .movem r a => [(r, 2), (a, 4)]
    | .add r0 r1 a => [(r0, 2), (r1, 2), (a, 4)]
    | .sub r0 r1 a => [(r0, 2), (r1, 2), (a, 4)]
    | .halt => []
    | .inp r => [(r, 2)]
    | .out r => [(r, 2)] := by
  cases i <;> rfl

@[simp] theorem encoderOperands_length (i : Instr) : i.encoderOperands.length = i.row.operands.length := by
  cases i <;> rfl

/-- The operand fields of an instruction as the encoder takes them. -/
theorem encoderFields_eq (i : Instr) :
    i.encoderOperands.zip i.row.widths = i.operandFields.map (fun f => ((f.1 : Int), f.2)) := by
  cases i <;> rfl

/-- Well-formedness is exactly that every operand fits. -/
theorem wf_iff_fits (i : Instr) : i.wf = true ↔ ∀ f ∈ i.operandFields, f.1 < 2 ^ f.2 := by
  rw [operandFields_eq]
  cases i <;> simp [Instr.wf, and_assoc]

/-- Well-formedness is exactly what the encoder checks. -/
theorem wf_iff_checkFields (i : Instr) : i.wf = true ↔ checkFields (i.encoderOperands.zip i.row.widths) = .ok () := by
  rw [checkFields_ok, encoderFields_eq, wf_iff_fits]
  simp only [List.forall_mem_map, misfits_natCast, Nat.not_le]

theorem encodeFields_of_wf {i : Instr} (h : i.wf = true) : encodeFields i.row i.encoderOperands = .ok i.fields := by
  rw [encodeFields, if_neg (by simp), (wf_iff_checkFields i).mp h]
  cases i <;> rfl

/-- The encoder's checks fail on an ill-formed instruction with the first operand that does not fit. -/
theorem encodeFields_of_not_wf {i : Instr} (h : i.wf = false) : ∃ (before : List (Nat × Nat)) (v w : Nat) (after : List (Nat × Nat)),
    i.operandFields = before ++ (v, w) :: after ∧
    2 ^ w ≤ v ∧ (∀ f ∈ before, f.1 < 2 ^ f.2) ∧ encodeFields i.row i.encoderOperands = .error (.encoding v w) := by
  rcases encodeFields_cases i.row i.encoderOperands with ⟨hl, _⟩ | ⟨_, b, v, w, a, h1, h2, h3, h4⟩ | ⟨_, h1, _⟩
  · simp at hl
  · rw [encoderFields_eq] at h1
    obtain ⟨b', r, hb, rfl, hr⟩ := List.map_eq_append_iff.mp h1
    obtain ⟨⟨v', w'⟩, a', rfl, he, rfl⟩ := List.map_eq_cons_iff.mp hr
    cases he
    refine ⟨b', v', w', a', hb, (misfits_natCast _ _).mp h2, fun f hf => ?_, h4⟩
    have := h3 ((f.1 : Int), f.2) (List.mem_map.mpr ⟨f, hf, rfl⟩)
    rw [misfits_natCast] at this
    omega
  · have := (wf_iff_checkFields i).mpr (checkFields_ok.mpr h1)
    simp [h] at this

theorem encode_of_wf {i : Instr} (h : i.wf = true) : encode i = .ok (fieldsBits i.fields) := by
  simp [encode, encodeOperands, encodeFields_of_wf h]

theorem encode_ok {i : Instr} {bits : List Bit} (h : encode i = .ok bits) : i.wf = true ∧ bits = fieldsBits i.fields := by
  cases hw : i.wf with
  | false =>
    obtain ⟨_, v, w, _, _, _, _, he⟩ := encodeFields_of_not_wf hw
    simp [encode, encodeOperands, he] at h
  | true =>
    rw [encode_of_wf hw] at h
    cases h
    exact ⟨rfl, rfl⟩

@[simp] theorem fieldsBits_nil : fieldsBits [] = [] := rfl

@[simp] theorem fieldsBits_cons (f : Nat × Nat) (fs : List (Nat × Nat)) :
    fieldsBits (f :: fs) = fieldBits f.1 f.2 ++ fieldsBits fs := rfl

theorem fieldsBits_length (fs : List (Nat × Nat)) : (fieldsBits fs).length = (fs.map Prod.snd).sum := by
  induction fs with
  | nil => rfl
  | cons f fs ih => simp [ih]

theorem encodedBits_length (i : Instr) : (fieldsBits i.fields).length = i.length := by
  rw [fieldsBits_length, Instr.fields, operandFields_eq]
  cases i <;> rfl

/-- Fields that fit, written in order, append their bits to the stream. -/
theorem writeFields_ok (fs : List (Nat × Nat)) (wr : BitWriter)
    (h : ∀ f ∈ fs, widthOk f.2 = true ∧ f.1 < 2 ^ f.2) : wr.writeFields fs = .ok (wr.pushBits (fieldsBits fs)) := by
  induction fs generalizing wr with
  | nil => rfl
  | cons f fs ih =>
    obtain ⟨v, w⟩ := f
    obtain ⟨hw, hv⟩ := h (v, w) (by simp)
    simp only [BitWriter.writeFields, write_of_lt wr hw hv, fieldsBits_cons, pushBits_append]
    exact ih _ (fun f hf => h f (by simp [hf]))

theorem fields_fit {i : Instr} (h : i.wf = true) : ∀ f ∈ i.fields, widthOk f.2 = true ∧ f.1 < 2 ^ f.2 := by
  have hc := (wf_iff_fits i).mp h
  have hw : ∀ f ∈ i.operandFields, widthOk f.2 = true := by
    rw [operandFields_eq]
    cases i <;> simp [widthOk, Config.bitIoMaxWidth]
  intro f hf
  simp only [Instr.fields, List.mem_cons] at hf
  rcases hf with rfl | hf
  · have := opcode_lt i
    exact ⟨by simp [widthOk, Config.bitIoMaxWidth, Config.opcodeWidth], by simp [Config.opcodeWidth]; omega⟩
  · exact ⟨hw f hf, hc f hf⟩

/-- A well-formed instruction goes through the packer as its encoding. -/
theorem writeInstr_of_wf (wr : BitWriter) {i : Instr} (h : i.wf = true) :
    wr.writeInstr i = .ok (wr.pushBits (fieldsBits i.fields)) := by
  simp only [BitWriter.writeInstr, BitWriter.writeOperands, encodeFields_of_wf h]
  exact writeFields_ok _ _ (fields_fit h)

end Sys2Proof
end

