-- ==== Sys2Proof/Laws/Memory.lean ====
section
/-!
SUPPORT. The laws of memory: what a write leaves to be read, and that every memory operation keeps the canonical form
(`Memory.wf`) and the bounds (`AddressSpace.wf`).
-/

namespace Sys2Proof.Machine

variable {w : Nat}

/-- The keys of a memory, the addresses it lists. -/
abbrev Memory.keys (m : Memory w) : List Nat := m.map Prod.fst

@[simp] theorem read_nil (a : Nat) : Memory.read ([] : Memory w) a = 0 := rfl

theorem read_cons (k : Nat) (u : BitVec w) (m : Memory w) (a : Nat) :
    Memory.read ((k, u) :: m : Memory w) a = if k = a then u else Memory.read m a := rfl

theorem wf_nil : Memory.wf ([] : Memory w) := by simp [Memory.wf]

theorem wf_cons {k : Nat} {u : BitVec w} {m : Memory w} :
    Memory.wf ((k, u) :: m : Memory w) ↔ (∀ c ∈ m, k < c.1) ∧ u ≠ 0 ∧ Memory.wf m := by
  simp only [Memory.wf, List.map_cons, List.pairwise_cons, List.mem_map, List.mem_cons]
  constructor
  · rintro ⟨⟨h1, h2⟩, h3⟩
    exact ⟨fun c hc => h1 c.1 ⟨c, hc, rfl⟩, h3 (k, u) (Or.inl rfl), h2, fun c hc => h3 c (Or.inr hc)⟩
  · rintro ⟨h1, h2, h3, h4⟩
    refine ⟨⟨?_, h3⟩, ?_⟩
    · rintro a ⟨c, hc, rfl⟩
      exact h1 c hc
    · rintro c (rfl | hc)
      · exact h2
      · exact h4 c hc

/-- An address below every listed one reads as 0. -/
theorem read_of_lt {m : Memory w} {a : Nat} (h : ∀ c ∈ m, a < c.1) : m.read a = 0 := by
  induction m with
  | nil => rfl
  | cons c m ih =>
    obtain ⟨k, u⟩ := c
    have hk : a < k := h (k, u) (by simp)
    rw [read_cons, if_neg (by omega)]
    exact ih (fun c hc => h c (by simp [hc]))

/-- An address that is not listed reads as 0. -/
theorem read_of_not_mem {m : Memory w} {a : Nat} (h : ∀ c ∈ m, c.1 ≠ a) : m.read a = 0 := by
  induction m with
  | nil => rfl
  | cons c m ih =>
    obtain ⟨k, u⟩ := c
    rw [read_cons, if_neg (h (k, u) (by simp))]
    exact ih (fun c hc => h c (by simp [hc]))

/-- A write leaves every other address as it was. -/
theorem read_write_other (m : Memory w) {a b : Nat} (v : BitVec w) (h : b ≠ a) :
    (m.write a v).read b = m.read b := by
  induction m with
  | nil =>
    simp only [Memory.write]
    split
    · rfl
    · rw [read_cons, if_neg (Ne.symm h)]
  | cons c m ih =>
    obtain ⟨k, u⟩ := c
    simp only [Memory.write]
    split
    · split
      · rfl
      · rw [read_cons, if_neg (Ne.symm h)]
    · split
      · rename_i hk
        subst hk
        split
        · rw [read_cons, if_neg (Ne.symm h)]
        · rw [read_cons, read_cons, if_neg (Ne.symm h), if_neg (Ne.symm h)]
      · rw [read_cons, read_cons, ih]

/-- A write in a memory of canonical form is read back. -/
theorem read_write_same {m : Memory w} (h : m.wf) (a : Nat) (v : BitVec w) : (m.write a v).read a = v := by
  induction m with
  | nil =>
    simp only [Memory.write]
    split
    · rename_i hv
      rw [hv]
      rfl
    · rw [read_cons, if_pos rfl]
  | cons c m ih =>
    obtain ⟨k, u⟩ := c
    obtain ⟨hk, hu, hm⟩ := wf_cons.mp h
    simp only [Memory.write]
    split
    · rename_i hlt
      split
      · rename_i hv
        rw [hv]
        refine read_of_lt (fun c hc => ?_)
        rcases List.mem_cons.mp hc with rfl | hc
        · exact hlt
        · exact Nat.lt_trans hlt (hk c hc)
      · rw [read_cons, if_pos rfl]
    · split
      · rename_i hak
        split
        · rename_i hv
          rw [hv]
          exact read_of_lt (fun c hc => hak ▸ hk c hc)
        · rw [read_cons, if_pos rfl]
      · rename_i hne
        rw [read_cons, if_neg (fun e => hne e.symm), ih hm]

/-- Every entry of a memory after a write is the written one or was there before. -/
theorem mem_write {m : Memory w} {a : Nat} {v : BitVec w} {c : Nat × BitVec w} (h : c ∈ m.write a v) :
    c = (a, v) ∧ v ≠ 0 ∨ c ∈ m := by
  induction m with
  | nil =>
    simp only [Memory.write] at h
    split at h
    · simp at h
    · rename_i hv
      exact Or.inl ⟨by simpa using h, hv⟩
  | cons d m ih =>
    obtain ⟨k, u⟩ := d
    simp only [Memory.write] at h
    split at h
    · split at h
      · exact Or.inr h
      · rename_i hv
        rcases List.mem_cons.mp h with rfl | h
        · exact Or.inl ⟨rfl, hv⟩
        · exact Or.inr h
    · split at h
      · split at h
        · exact Or.inr (List.mem_cons_of_mem _ h)
        · rename_i hv
          rcases List.mem_cons.mp h with rfl | h
          · exact Or.inl ⟨rfl, hv⟩
          · exact Or.inr (List.mem_cons_of_mem _ h)
      · rcases List.mem_cons.mp h with rfl | h
        · exact Or.inr (by simp)
        · rcases ih h with h | h
          · exact Or.inl h
          · exact Or.inr (List.mem_cons_of_mem _ h)

/-- A write keeps the canonical form. -/
theorem write_wf {m : Memory w} (h : m.wf) (a : Nat) (v : BitVec w) : (m.write a v).wf := by
  induction m with
  | nil =>
    simp only [Memory.write]
    split
    · exact wf_nil
    · rename_i hv
      exact wf_cons.mpr ⟨by simp, hv, wf_nil⟩
  | cons c m ih =>
    obtain ⟨k, u⟩ := c
    have hall := h
    obtain ⟨hk, hu, hm⟩ := wf_cons.mp h
    simp only [Memory.write]
    split
    · rename_i hlt
      split
      · exact h
      · rename_i hv
        refine wf_cons.mpr ⟨fun c hc => ?_, hv, h⟩
        rcases List.mem_cons.mp hc with rfl | hc
        · exact hlt
        · exact Nat.lt_trans hlt (hk c hc)
    · split
      · rename_i hak
        split
        · exact hm
        · rename_i hv
          exact wf_cons.mpr ⟨fun c hc => hak ▸ hk c hc, hv, hm⟩
      · rename_i hlt hne
        refine wf_cons.mpr ⟨fun c hc => ?_, hu, ih hm⟩
        rcases mem_write hc with ⟨rfl, _⟩ | hc
        · show k < a
          omega
        · exact hk c hc

/-- Two memories of canonical form that read alike are the same data. -/
theorem ext_of_read {m n : Memory w} (hm : m.wf) (hn : n.wf) (h : ∀ a, m.read a = n.read a) : m = n := by
  induction m generalizing n with
  | nil =>
    cases n with
    | nil => rfl
    | cons c n =>
      obtain ⟨k, u⟩ := c
      have hk := h k
      rw [read_nil, read_cons, if_pos rfl] at hk
      exact absurd hk.symm (wf_cons.mp hn).2.1
  | cons c m ih =>
    obtain ⟨k, u⟩ := c
    obtain ⟨hk, hu, hm'⟩ := wf_cons.mp hm
    cases n with
    | nil =>
      have hk' := h k
      rw [read_nil, read_cons, if_pos rfl] at hk'
      exact absurd hk' hu
    | cons d n =>
      obtain ⟨l, x⟩ := d
      obtain ⟨hl, hx, hn'⟩ := wf_cons.mp hn
      have hkl : k = l := by
        rcases Nat.lt_trichotomy k l with hlt | heq | hlt
        · have e := h k
          rw [read_cons, if_pos rfl, read_cons, if_neg (by omega),
            read_of_lt (fun c hc => Nat.lt_trans hlt (hl c hc))] at e
          exact absurd e hu
        · exact heq
        · have e := h l
          rw [read_cons, if_neg (by omega), read_of_lt (fun c hc => Nat.lt_trans hlt (hk c hc)),
            read_cons, if_pos rfl] at e
          exact absurd e.symm hx
      subst hkl
      have hux : u = x := by
        have e := h k
        rwa [read_cons, if_pos rfl, read_cons, if_pos rfl] at e
      subst hux
      refine congrArg _ (ih hm' hn' (fun a => ?_))
      by_cases hka : k = a
      · subst hka
        rw [read_of_lt hk, read_of_lt hl]
      · have e := h a
        rwa [read_cons, if_neg hka, read_cons, if_neg hka] at e

theorem ofList_mem {vs : List (BitVec w)} {start : Nat} {c : Nat × BitVec w}
    (h : c ∈ Memory.ofList start vs) : start ≤ c.1 ∧ c.1 < start + vs.length := by
  induction vs generalizing start with
  | nil => simp [Memory.ofList] at h
  | cons v vs ih =>
    simp only [Memory.ofList] at h
    simp only [List.length_cons]
    split at h
    · have := ih h
      omega
    · rcases List.mem_cons.mp h with rfl | h
      · simp
      · have := ih h
        omega

/-- A memory made from a list of values is in canonical form. -/
theorem ofList_wf (vs : List (BitVec w)) (start : Nat) : (Memory.ofList start vs).wf := by
  induction vs generalizing start with
  | nil => exact wf_nil
  | cons v vs ih =>
    simp only [Memory.ofList]
    split
    · exact ih _
    · rename_i hv
      exact wf_cons.mpr ⟨fun c hc => by have := ofList_mem hc; omega, hv, ih _⟩

/-- What a memory made from a list of values reads as. -/
theorem read_ofList (vs : List (BitVec w)) (start a : Nat) :
    (Memory.ofList start vs).read a = if a < start then 0 else vs.getD (a - start) 0 := by
  induction vs generalizing start with
  | nil => simp [Memory.ofList]
  | cons v vs ih =>
    by_cases hlt : a < start
    · rw [if_pos hlt]
      exact read_of_lt (fun c hc => by have := ofList_mem hc; omega)
    · rw [if_neg hlt]
      by_cases heq : a = start
      · subst heq
        simp only [Memory.ofList, Nat.sub_self, List.getD_cons_zero]
        split
        · rename_i hv
          rw [ih, if_pos (by omega), hv]
        · rw [read_cons, if_pos rfl]
      · have hs : a - start = (a - (start + 1)) + 1 := by omega
        rw [hs, List.getD_cons_succ]
        simp only [Memory.ofList]
        split
        · rw [ih, if_neg (by omega)]
        · rw [read_cons, if_neg (fun e => heq e.symm), ih, if_neg (by omega)]

theorem writeList_wf {m : Memory w} (h : m.wf) (vs : List (BitVec w)) (start : Nat) :
    (m.writeList start vs).wf := by
  induction vs generalizing m start with
  | nil => exact h
  | cons v vs ih => exact ih (write_wf h _ _) _

theorem read_writeList_below (m : Memory w) (vs : List (BitVec w)) {start a : Nat} (h : a < start) :
    (m.writeList start vs).read a = m.read a := by
  induction vs generalizing m start with
  | nil => rfl
  | cons v vs ih =>
    simp only [Memory.writeList]
    rw [ih _ (by omega), read_write_other _ _ (by omega)]

/-- Values written one after another are read back. -/
theorem read_writeList {m : Memory w} (h : m.wf) (vs : List (BitVec w)) (start k : Nat) (hk : k < vs.length) :
    (m.writeList start vs).read (start + k) = vs.getD k 0 := by
  induction vs generalizing m start k with
  | nil => simp at hk
  | cons v vs ih =>
    simp only [Memory.writeList]
    cases k with
    | zero =>
      simp only [Nat.add_zero]
      rw [read_writeList_below _ _ (by omega), read_write_same h]
      rfl
    | succ k =>
      have hk' : k < vs.length := by simpa using hk
      rw [show start + (k + 1) = start + 1 + k by omega, ih (write_wf h _ _) _ _ hk', List.getD_cons_succ]

/-- A write inside the bounds keeps an AddressSpace well formed. -/
theorem set_wf {m : AddressSpace w} (h : m.wf) {a : Nat} {v : BitVec w} (ha : a < m.size) :
    AddressSpace.wf { m with cells := m.cells.write a v } := by
  refine ⟨write_wf h.1 a v, fun c hc => ?_⟩
  rcases mem_write hc with ⟨rfl, _⟩ | hc
  · exact ha
  · exact h.2 c hc

theorem get_of_lt {m : AddressSpace w} {a : Nat} (h : a < m.size) : m.get a = .ok (m.cells.read a) := by
  simp [AddressSpace.get, Nat.not_le.mpr h]

theorem get_of_le {m : AddressSpace w} {a : Nat} (h : m.size ≤ a) :
    m.get a = .error (.fault .outOfBounds (.address a)) := by
  simp [AddressSpace.get, h]

theorem set_of_lt {m : AddressSpace w} {a : Nat} (v : BitVec w) (h : a < m.size) :
    m.set a v = .ok { m with cells := m.cells.write a v } := by
  simp [AddressSpace.set, Nat.not_le.mpr h]

theorem set_of_le {m : AddressSpace w} {a : Nat} (v : BitVec w) (h : m.size ≤ a) :
    m.set a v = .error (.fault .outOfBounds (.address a)) := by
  simp [AddressSpace.set, h]

end Sys2Proof.Machine
end

