-- ==== Sys2Proof/Laws/State.lean ====
section
/-!
SUPPORT. One lemma per field per named update of the state, true by rfl, so that no proof unfolds a record update; and the
same for the states a load and a placement give.
-/

namespace Sys2Proof.Machine

@[simp] theorem advance_regs (s : State) (len : Nat) : (s.advance len).regs = s.regs := rfl
@[simp] theorem advance_pc (s : State) (len : Nat) : (s.advance len).pc = s.pc + len := rfl
@[simp] theorem advance_eof (s : State) (len : Nat) : (s.advance len).eof = s.eof := rfl
@[simp] theorem advance_prog (s : State) (len : Nat) : (s.advance len).prog = s.prog := rfl
@[simp] theorem advance_data (s : State) (len : Nat) : (s.advance len).data = s.data := rfl
@[simp] theorem advance_status (s : State) (len : Nat) : (s.advance len).status = .running := rfl
@[simp] theorem advance_fault (s : State) (len : Nat) : (s.advance len).fault = s.fault := rfl
@[simp] theorem advance_trace (s : State) (len : Nat) : (s.advance len).trace = s.trace := rfl
@[simp] theorem advance_answers (s : State) (len : Nat) : (s.advance len).answers = s.answers := rfl

@[simp] theorem enterFaulted_regs (s : State) (k : ErrorKind) (info : FaultInfo) (pc0 : Nat) : (s.enterFaulted k info pc0).regs = s.regs := rfl
@[simp] theorem enterFaulted_pc (s : State) (k : ErrorKind) (info : FaultInfo) (pc0 : Nat) : (s.enterFaulted k info pc0).pc = s.pc := rfl
@[simp] theorem enterFaulted_eof (s : State) (k : ErrorKind) (info : FaultInfo) (pc0 : Nat) : (s.enterFaulted k info pc0).eof = s.eof := rfl
@[simp] theorem enterFaulted_prog (s : State) (k : ErrorKind) (info : FaultInfo) (pc0 : Nat) : (s.enterFaulted k info pc0).prog = s.prog := rfl
@[simp] theorem enterFaulted_data (s : State) (k : ErrorKind) (info : FaultInfo) (pc0 : Nat) : (s.enterFaulted k info pc0).data = s.data := rfl
@[simp] theorem enterFaulted_status (s : State) (k : ErrorKind) (info : FaultInfo) (pc0 : Nat) : (s.enterFaulted k info pc0).status = .faulted := rfl
@[simp] theorem enterFaulted_fault (s : State) (k : ErrorKind) (info : FaultInfo) (pc0 : Nat) : (s.enterFaulted k info pc0).fault = some { kind := k, code := k.code, pc := pc0, info := info } := rfl
@[simp] theorem enterFaulted_trace (s : State) (k : ErrorKind) (info : FaultInfo) (pc0 : Nat) : (s.enterFaulted k info pc0).trace = s.trace := rfl
@[simp] theorem enterFaulted_answers (s : State) (k : ErrorKind) (info : FaultInfo) (pc0 : Nat) : (s.enterFaulted k info pc0).answers = s.answers := rfl

@[simp] theorem setReg_regs (s : State) (i : Nat) (v : Bits8) : (s.setReg i v).regs = s.regs.setIfInBounds i (.val v) := rfl
@[simp] theorem setReg_pc (s : State) (i : Nat) (v : Bits8) : (s.setReg i v).pc = s.pc := rfl
@[simp] theorem setReg_eof (s : State) (i : Nat) (v : Bits8) : (s.setReg i v).eof = s.eof := rfl
@[simp] theorem setReg_prog (s : State) (i : Nat) (v : Bits8) : (s.setReg i v).prog = s.prog := rfl
@[simp] theorem setReg_data (s : State) (i : Nat) (v : Bits8) : (s.setReg i v).data = s.data := rfl
@[simp] theorem setReg_status (s : State) (i : Nat) (v : Bits8) : (s.setReg i v).status = s.status := rfl
@[simp] theorem setReg_fault (s : State) (i : Nat) (v : Bits8) : (s.setReg i v).fault = s.fault := rfl
@[simp] theorem setReg_trace (s : State) (i : Nat) (v : Bits8) : (s.setReg i v).trace = s.trace := rfl
@[simp] theorem setReg_answers (s : State) (i : Nat) (v : Bits8) : (s.setReg i v).answers = s.answers := rfl

@[simp] theorem log_regs (s : State) (e : Event) : (s.log e).regs = s.regs := rfl
@[simp] theorem log_pc (s : State) (e : Event) : (s.log e).pc = s.pc := rfl
@[simp] theorem log_eof (s : State) (e : Event) : (s.log e).eof = s.eof := rfl
@[simp] theorem log_prog (s : State) (e : Event) : (s.log e).prog = s.prog := rfl
@[simp] theorem log_data (s : State) (e : Event) : (s.log e).data = s.data := rfl
@[simp] theorem log_status (s : State) (e : Event) : (s.log e).status = s.status := rfl
@[simp] theorem log_fault (s : State) (e : Event) : (s.log e).fault = s.fault := rfl
@[simp] theorem log_trace (s : State) (e : Event) : (s.log e).trace = s.trace ++ [e] := rfl
@[simp] theorem log_answers (s : State) (e : Event) : (s.log e).answers = s.answers := rfl

@[simp] theorem deliver_regs (s : State) (ans : HostAnswer) : (s.deliver ans).regs = s.regs := rfl
@[simp] theorem deliver_pc (s : State) (ans : HostAnswer) : (s.deliver ans).pc = s.pc := rfl
@[simp] theorem deliver_eof (s : State) (ans : HostAnswer) : (s.deliver ans).eof = s.eof := rfl
@[simp] theorem deliver_prog (s : State) (ans : HostAnswer) : (s.deliver ans).prog = s.prog := rfl
@[simp] theorem deliver_data (s : State) (ans : HostAnswer) : (s.deliver ans).data = s.data := rfl
@[simp] theorem deliver_status (s : State) (ans : HostAnswer) : (s.deliver ans).status = s.status := rfl
@[simp] theorem deliver_fault (s : State) (ans : HostAnswer) : (s.deliver ans).fault = s.fault := rfl
@[simp] theorem deliver_trace (s : State) (ans : HostAnswer) : (s.deliver ans).trace = s.trace := rfl
@[simp] theorem deliver_answers (s : State) (ans : HostAnswer) : (s.deliver ans).answers = s.answers ++ [ans] := rfl

@[simp] theorem placeBits_regs (s : State) (bits : List Bit) : (s.placeBits bits).regs = s.regs := rfl
@[simp] theorem placeBits_pc (s : State) (bits : List Bit) : (s.placeBits bits).pc = s.pc := rfl
@[simp] theorem placeBits_eof (s : State) (bits : List Bit) : (s.placeBits bits).eof = max s.eof (s.pc + bits.length) := rfl
@[simp] theorem placeBits_prog (s : State) (bits : List Bit) : (s.placeBits bits).prog = { size := max s.prog.size (s.pc + bits.length), cells := s.prog.cells.writeList s.pc bits } := rfl
@[simp] theorem placeBits_data (s : State) (bits : List Bit) : (s.placeBits bits).data = s.data := rfl
@[simp] theorem placeBits_status (s : State) (bits : List Bit) : (s.placeBits bits).status = s.status.awake := rfl
@[simp] theorem placeBits_fault (s : State) (bits : List Bit) : (s.placeBits bits).fault = if s.status.isTerminal then none else s.fault := rfl
@[simp] theorem placeBits_trace (s : State) (bits : List Bit) : (s.placeBits bits).trace = s.trace := rfl
@[simp] theorem placeBits_answers (s : State) (bits : List Bit) : (s.placeBits bits).answers = s.answers := rfl

section

variable (p : Config.Params) (image : List Bits8) (eofBits : Nat) (dataImage : List Bits8)

@[simp] theorem loaded_regs :
    (State.loaded p image eofBits dataImage).regs = #v[.unwritten, .unwritten, .unwritten, .unwritten] := rfl
@[simp] theorem loaded_pc :
    (State.loaded p image eofBits dataImage).pc = 0 := rfl
@[simp] theorem loaded_eof :
    (State.loaded p image eofBits dataImage).eof = eofBits := rfl
@[simp] theorem loaded_prog :
    (State.loaded p image eofBits dataImage).prog = { size := p.progSize, cells := Memory.ofList 0 (imageBits image) } := rfl
@[simp] theorem loaded_data :
    (State.loaded p image eofBits dataImage).data = { size := p.dataSize, cells := Memory.ofList 0 dataImage } := rfl
@[simp] theorem loaded_status :
    (State.loaded p image eofBits dataImage).status = .ready := rfl
@[simp] theorem loaded_fault :
    (State.loaded p image eofBits dataImage).fault = none := rfl
@[simp] theorem loaded_trace :
    (State.loaded p image eofBits dataImage).trace = [] := rfl
@[simp] theorem loaded_answers :
    (State.loaded p image eofBits dataImage).answers = [] := rfl

end

@[simp] theorem awake_not_terminal (st : Status) : st.awake.isTerminal = false := by cases st <;> rfl

end Sys2Proof.Machine
end

