-- ==== Sys2Proof/Laws/Exec.lean ====
section
/-!
SUPPORT. What the shared operations and the handlers can answer, said once: a register or a data access, each handler, the
dispatch, and one step. Later proofs cite these instead of unfolding the machine.
-/

namespace Sys2Proof.Machine

@[simp] theorem ok_bind {ε α β : Type} (a : α) (f : α → Except ε β) : (Except.ok a >>= f) = f a := rfl

@[simp] theorem error_bind {ε α β : Type} (e : ε) (f : α → Except ε β) :
    ((Except.error e : Except ε α) >>= f) = Except.error e := rfl

section

variable (s : State)

theorem regCheck_of_lt {i : Nat} (h : i < 4) : s.regCheck i = .ok s := by
  simp [State.regCheck, Config.regCount, Nat.not_le.mpr h]

theorem regCheck_of_le {i : Nat} (h : 4 ≤ i) : s.regCheck i = .error (.fault .invalidRegister (.index i)) := by
  simp [State.regCheck, Config.regCount, h]

theorem regRead_of_le {i : Nat} (h : 4 ≤ i) : s.regRead i = .error (.fault .invalidRegister (.index i)) := by
  simp [State.regRead, Config.regCount, h]

theorem regRead_val {i : Nat} {b : Bits8} (h : s.regs[i]? = some (.val b)) : s.regRead i = .ok b := by
  have hi : i < 4 := by
    by_contra hn
    simp [Vector.getElem?_eq_none (Nat.not_lt.mp hn)] at h
  simp [State.regRead, Config.regCount, Nat.not_le.mpr hi, h]

theorem regRead_unwritten {i : Nat} (h : s.regs[i]? = some .unwritten) :
    s.regRead i = .error (.fault .unwrittenRegister (.index i)) := by
  have hi : i < 4 := by
    by_contra hn
    simp [Vector.getElem?_eq_none (Nat.not_lt.mp hn)] at h
  simp [State.regRead, Config.regCount, Nat.not_le.mpr hi, h]

/-- A register reference in range names a register, written or not. -/
theorem reg_cases {i : Nat} (h : i < 4) : s.regs[i]? = some .unwritten ∨ ∃ b, s.regs[i]? = some (.val b) := by
  rw [Vector.getElem?_eq_getElem h]
  cases s.regs[i] with
  | unwritten => exact Or.inl rfl
  | val b => exact Or.inr ⟨b, rfl⟩

theorem regWrite_of_lt {i : Nat} (v : Bits8) (h : i < 4) : s.regWrite i v = .ok (s.setReg i v) := by
  simp [State.regWrite, Config.regCount, Nat.not_le.mpr h]

theorem regWrite_of_le {i : Nat} (v : Bits8) (h : 4 ≤ i) :
    s.regWrite i v = .error (.fault .invalidRegister (.index i)) := by
  simp [State.regWrite, Config.regCount, h]

theorem setReg_same {i : Nat} (v : Bits8) (h : i < 4) : (s.setReg i v).regs[i]? = some (.val v) := by
  simp [h]

theorem setReg_other {i j : Nat} (v : Bits8) (h : j ≠ i) : (s.setReg i v).regs[j]? = s.regs[j]? := by
  simp [Ne.symm h]

theorem dataRead_of_lt {a : Nat} (h : a < s.data.size) : s.dataRead a = .ok (s.data.cells.read a) := get_of_lt h

theorem dataRead_of_le {a : Nat} (h : s.data.size ≤ a) : s.dataRead a = .error (.fault .outOfBounds (.address a)) :=
  get_of_le h

/-- The state a data store gives. -/
def State.setData (s : State) (a : Nat) (v : Bits8) : State :=
  { s with data := { s.data with cells := s.data.cells.write a v } }

theorem dataWrite_of_lt {a : Nat} (v : Bits8) (h : a < s.data.size) : s.dataWrite a v = .ok (s.setData a v) := by
  simp [State.dataWrite, set_of_lt v h, State.setData]

theorem dataWrite_of_le {a : Nat} (v : Bits8) (h : s.data.size ≤ a) :
    s.dataWrite a v = .error (.fault .outOfBounds (.address a)) := by
  simp [State.dataWrite, set_of_le v h]

/-- The state that has consumed its oldest answer. -/
def State.dropAnswer (s : State) : State := { s with answers := s.answers.tail }

/-- The same core beside other input. -/
def State.withAnswers (s : State) (l : List HostAnswer) : State := { s with answers := l }

end

/-- What completing an instruction does, from the state whose `pc` has already advanced (the pseudocode of R100 to R142). -/
inductive Effect : Instr → State → State → Prop where
  | mover {s : State} {r a : Nat} (hr : r < 4) (ha : a < s.data.size) :
      Effect (.mover r a) s (s.setReg r (s.data.cells.read a))
  | movem {s : State} {r a : Nat} {b : Bits8} (hr : s.regs[r]? = some (.val b)) (ha : a < s.data.size) :
      Effect (.movem r a) s (s.setData a b)
  | add {s : State} {r0 r1 a : Nat} {b : Bits8} (h0 : r0 < 4) (h1 : s.regs[r1]? = some (.val b)) (ha : a < s.data.size) :
      Effect (.add r0 r1 a) s (s.setReg r0 (add8 b (s.data.cells.read a)))
  | sub {s : State} {r0 r1 a : Nat} {b : Bits8} (h0 : r0 < 4) (h1 : s.regs[r1]? = some (.val b)) (ha : a < s.data.size) :
      Effect (.sub r0 r1 a) s (s.setReg r0 (sub8 b (s.data.cells.read a)))
  | halt {s : State} : Effect .halt s { s with pc := s.eof, status := .halted }
  | inpValue {s : State} {r : Nat} {n : Int} {rest : List HostAnswer} (hr : r < 4) (ha : s.answers = .value n :: rest) :
      Effect (.inp r) s ((s.dropAnswer.setReg r (bits8 n)).log (.inp (bits8 n)))
  | inpRejected {s : State} {r : Nat} {rest : List HostAnswer} (hr : r < 4) (ha : s.answers = .parseFailure :: rest) :
      Effect (.inp r) s (s.dropAnswer.log .inRejected)
  | out {s : State} {r : Nat} {b : Bits8} (hr : s.regs[r]? = some (.val b)) :
      Effect (.out r) s (s.log (.out (int8 b)))

/-- The first failing check of an instruction, in operand order, range before written (60_exceptions.md R158). -/
inductive Raises : Instr → State → ErrorKind → FaultInfo → Prop where
  | moverRange {s : State} {r a : Nat} (h : 4 ≤ r) : Raises (.mover r a) s .invalidRegister (.index r)
  | moverBounds {s : State} {r a : Nat} (h : r < 4) (ha : s.data.size ≤ a) : Raises (.mover r a) s .outOfBounds (.address a)
  | movemRange {s : State} {r a : Nat} (h : 4 ≤ r) : Raises (.movem r a) s .invalidRegister (.index r)
  | movemUnwritten {s : State} {r a : Nat} (h : s.regs[r]? = some .unwritten) :
      Raises (.movem r a) s .unwrittenRegister (.index r)
  | movemBounds {s : State} {r a : Nat} {b : Bits8} (h : s.regs[r]? = some (.val b)) (ha : s.data.size ≤ a) :
      Raises (.movem r a) s .outOfBounds (.address a)
  | addRange0 {s : State} {r0 r1 a : Nat} (h : 4 ≤ r0) : Raises (.add r0 r1 a) s .invalidRegister (.index r0)
  | addRange1 {s : State} {r0 r1 a : Nat} (h0 : r0 < 4) (h : 4 ≤ r1) :
      Raises (.add r0 r1 a) s .invalidRegister (.index r1)
  | addUnwritten {s : State} {r0 r1 a : Nat} (h0 : r0 < 4) (h : s.regs[r1]? = some .unwritten) :
      Raises (.add r0 r1 a) s .unwrittenRegister (.index r1)
  | addBounds {s : State} {r0 r1 a : Nat} {b : Bits8} (h0 : r0 < 4) (h : s.regs[r1]? = some (.val b))
      (ha : s.data.size ≤ a) : Raises (.add r0 r1 a) s .outOfBounds (.address a)
  | subRange0 {s : State} {r0 r1 a : Nat} (h : 4 ≤ r0) : Raises (.sub r0 r1 a) s .invalidRegister (.index r0)
  | subRange1 {s : State} {r0 r1 a : Nat} (h0 : r0 < 4) (h : 4 ≤ r1) :
      Raises (.sub r0 r1 a) s .invalidRegister (.index r1)
  | subUnwritten {s : State} {r0 r1 a : Nat} (h0 : r0 < 4) (h : s.regs[r1]? = some .unwritten) :
      Raises (.sub r0 r1 a) s .unwrittenRegister (.index r1)
  | subBounds {s : State} {r0 r1 a : Nat} {b : Bits8} (h0 : r0 < 4) (h : s.regs[r1]? = some (.val b))
      (ha : s.data.size ≤ a) : Raises (.sub r0 r1 a) s .outOfBounds (.address a)
  | inpRange {s : State} {r : Nat} (h : 4 ≤ r) : Raises (.inp r) s .invalidRegister (.index r)
  | outRange {s : State} {r : Nat} (h : 4 ≤ r) : Raises (.out r) s .invalidRegister (.index r)
  | outUnwritten {s : State} {r : Nat} (h : s.regs[r]? = some .unwritten) : Raises (.out r) s .unwrittenRegister (.index r)

theorem raises_engine {i : Instr} {s : State} {k : ErrorKind} {info : FaultInfo} (h : Raises i s k info) :
    k.isEngine = true ∧ k.infoFits info = true := by
  cases h <;> exact ⟨rfl, rfl⟩

theorem dispatch_ok {s t : State} {len : Nat} {h : State → Except Stop State} (e : h (s.advance len) = .ok t) :
    s.dispatch len h = .next t := by
  simp [State.dispatch, e]

theorem dispatch_fault {s : State} {len : Nat} {h : State → Except Stop State} {k : ErrorKind} {info : FaultInfo}
    (e : h (s.advance len) = .error (.fault k info)) :
    s.dispatch len h = .next ((s.advance len).enterFaulted k info s.pc) := by
  simp [State.dispatch, e]

theorem dispatch_wait {s : State} {len : Nat} {h : State → Except Stop State} (e : h (s.advance len) = .error .wait) :
    s.dispatch len h = .next s := by
  simp [State.dispatch, e]

section

variable (s : State)

theorem handleMover_cases (r a : Nat) :
    (∃ t, handleMover r a s = .ok t ∧ Effect (.mover r a) s t) ∨
      ∃ k info, handleMover r a s = .error (.fault k info) ∧ Raises (.mover r a) s k info := by
  rcases Nat.lt_or_ge r 4 with hr | hr
  · rcases Nat.lt_or_ge a s.data.size with ha | ha
    · exact .inl ⟨_, by simp [handleMover, regCheck_of_lt s hr, dataRead_of_lt s ha, regWrite_of_lt s _ hr], .mover hr ha⟩
    · exact .inr ⟨_, _, by simp [handleMover, regCheck_of_lt s hr, dataRead_of_le s ha], .moverBounds hr ha⟩
  · exact .inr ⟨_, _, by simp [handleMover, regCheck_of_le s hr], .moverRange hr⟩

theorem handleMovem_cases (r a : Nat) :
    (∃ t, handleMovem r a s = .ok t ∧ Effect (.movem r a) s t) ∨
      ∃ k info, handleMovem r a s = .error (.fault k info) ∧ Raises (.movem r a) s k info := by
  rcases Nat.lt_or_ge r 4 with hr | hr
  · rcases reg_cases s hr with hu | ⟨b, hb⟩
    · exact .inr ⟨_, _, by simp [handleMovem, regRead_unwritten s hu], .movemUnwritten hu⟩
    · rcases Nat.lt_or_ge a s.data.size with ha | ha
      · exact .inl ⟨_, by simp [handleMovem, regRead_val s hb, dataWrite_of_lt s b ha], .movem hb ha⟩
      · exact .inr ⟨_, _, by simp [handleMovem, regRead_val s hb, dataWrite_of_le s b ha], .movemBounds hb ha⟩
  · exact .inr ⟨_, _, by simp [handleMovem, regRead_of_le s hr], .movemRange hr⟩

theorem handleArith_cases (op : Bits8 → Bits8 → Bits8) (r0 r1 a : Nat) :
    (∃ b, r0 < 4 ∧ s.regs[r1]? = some (.val b) ∧ a < s.data.size ∧
        handleArith op r0 r1 a s = .ok (s.setReg r0 (op b (s.data.cells.read a)))) ∨
      ∃ k info, handleArith op r0 r1 a s = .error (.fault k info) ∧
        Raises (.add r0 r1 a) s k info ∧ Raises (.sub r0 r1 a) s k info := by
  rcases Nat.lt_or_ge r0 4 with h0 | h0
  · rcases Nat.lt_or_ge r1 4 with h1 | h1
    · rcases reg_cases s h1 with hu | ⟨b, hb⟩
      · exact .inr ⟨_, _, by simp [handleArith, regCheck_of_lt s h0, regRead_unwritten s hu],
          .addUnwritten h0 hu, .subUnwritten h0 hu⟩
      · rcases Nat.lt_or_ge a s.data.size with ha | ha
        · exact .inl ⟨b, h0, hb, ha, by
            simp [handleArith, regCheck_of_lt s h0, regRead_val s hb, dataRead_of_lt s ha, regWrite_of_lt s _ h0]⟩
        · exact .inr ⟨_, _, by
            simp [handleArith, regCheck_of_lt s h0, regRead_val s hb, dataRead_of_le s ha],
            .addBounds h0 hb ha, .subBounds h0 hb ha⟩
    · exact .inr ⟨_, _, by simp [handleArith, regCheck_of_lt s h0, regRead_of_le s h1],
        .addRange1 h0 h1, .subRange1 h0 h1⟩
  · exact .inr ⟨_, _, by simp [handleArith, regCheck_of_le s h0], .addRange0 h0, .subRange0 h0⟩

theorem handleIn_cases (r : Nat) :
    (∃ t, handleIn r s = .ok t ∧ Effect (.inp r) s t) ∨
      (∃ k info, handleIn r s = .error (.fault k info) ∧ Raises (.inp r) s k info) ∨
      handleIn r s = .error .wait ∧ r < 4 ∧ s.answers = [] := by
  rcases Nat.lt_or_ge r 4 with hr | hr
  · cases ha : s.answers with
    | nil => exact .inr (.inr ⟨by simp [handleIn, regCheck_of_lt s hr, State.awaitIn, ha], hr, rfl⟩)
    | cons ans rest =>
      cases ans with
      | value n =>
        exact .inl ⟨_, by
          simp [handleIn, regCheck_of_lt s hr, State.awaitIn, ha, State.acceptAnswer, regWrite_of_lt _ _ hr]
          rfl, by
          have := Effect.inpValue hr ha
          simpa only [State.dropAnswer, ha, List.tail_cons] using this⟩
      | parseFailure =>
        exact .inl ⟨_, by
          simp [handleIn, regCheck_of_lt s hr, State.awaitIn, ha, State.acceptAnswer]
          rfl, by
          have := Effect.inpRejected hr ha
          simpa only [State.dropAnswer, ha, List.tail_cons] using this⟩
  · exact .inr (.inl ⟨_, _, by simp [handleIn, regCheck_of_le s hr], .inpRange hr⟩)

theorem handleOut_cases (r : Nat) :
    (∃ t, handleOut r s = .ok t ∧ Effect (.out r) s t) ∨
      ∃ k info, handleOut r s = .error (.fault k info) ∧ Raises (.out r) s k info := by
  rcases Nat.lt_or_ge r 4 with hr | hr
  · rcases reg_cases s hr with hu | ⟨b, hb⟩
    · exact .inr ⟨_, _, by simp [handleOut, regRead_unwritten s hu], .outUnwritten hu⟩
    · exact .inl ⟨_, by simp [handleOut, regRead_val s hb], .out hb⟩
  · exact .inr ⟨_, _, by simp [handleOut, regRead_of_le s hr], .outRange hr⟩

end

/-- Everything executing an instruction can do: complete with its effect, enter `Faulted` at its first failing check, or wait. -/
theorem exec_cases (i : Instr) (s : State) :
    (∃ t, exec i s = .next t ∧ Effect i (s.advance i.length) t) ∨
      (∃ k info, exec i s = .next ((s.advance i.length).enterFaulted k info s.pc) ∧ Raises i (s.advance i.length) k info) ∨
      exec i s = .next s ∧ s.answers = [] ∧ ∃ r, r < 4 ∧ i = .inp r := by
  cases i with
  | mover r a =>
    rcases handleMover_cases (s.advance (lenOf 0)) r a with ⟨t, h, e⟩ | ⟨k, info, h, e⟩
    · exact .inl ⟨t, dispatch_ok h, e⟩
    · exact .inr (.inl ⟨k, info, dispatch_fault h, e⟩)
  | movem r a =>
    rcases handleMovem_cases (s.advance (lenOf 1)) r a with ⟨t, h, e⟩ | ⟨k, info, h, e⟩
    · exact .inl ⟨t, dispatch_ok h, e⟩
    · exact .inr (.inl ⟨k, info, dispatch_fault h, e⟩)
  | add r0 r1 a =>
    rcases handleArith_cases (s.advance (lenOf 2)) add8 r0 r1 a with ⟨b, h0, h1, ha, h⟩ | ⟨k, info, h, e, _⟩
    · exact .inl ⟨_, dispatch_ok h, .add h0 h1 ha⟩
    · exact .inr (.inl ⟨k, info, dispatch_fault h, e⟩)
  | sub r0 r1 a =>
    rcases handleArith_cases (s.advance (lenOf 3)) sub8 r0 r1 a with ⟨b, h0, h1, ha, h⟩ | ⟨k, info, h, _, e⟩
    · exact .inl ⟨_, dispatch_ok h, .sub h0 h1 ha⟩
    · exact .inr (.inl ⟨k, info, dispatch_fault h, e⟩)
  | halt => exact .inl ⟨_, dispatch_ok (h := handleHalt) rfl, .halt⟩
  | inp r =>
    rcases handleIn_cases (s.advance (lenOf 5)) r with ⟨t, h, e⟩ | ⟨k, info, h, e⟩ | ⟨h, hr, ha⟩
    · exact .inl ⟨t, dispatch_ok h, e⟩
    · exact .inr (.inl ⟨k, info, dispatch_fault h, e⟩)
    · exact .inr (.inr ⟨dispatch_wait h, ha, r, hr, rfl⟩)
  | out r =>
    rcases handleOut_cases (s.advance (lenOf 6)) r with ⟨t, h, e⟩ | ⟨k, info, h, e⟩
    · exact .inl ⟨t, dispatch_ok h, e⟩
    · exact .inr (.inl ⟨k, info, dispatch_fault h, e⟩)

theorem reg_lt {s : State} {i : Nat} {x : Slot} (h : s.regs[i]? = some x) : i < 4 := by
  by_contra hn
  simp [Vector.getElem?_eq_none (Nat.not_lt.mp hn)] at h

/-- Two effects of one instruction from one state are the same, and an effect excludes a failing check. -/
theorem effect_det {i : Instr} {s t u : State} (h : Effect i s t) (h' : Effect i s u) : t = u := by
  cases h <;> cases h' <;> simp_all

theorem effect_not_raises {i : Instr} {s t : State} {k : ErrorKind} {info : FaultInfo} (h : Effect i s t)
    (h' : Raises i s k info) : False := by
  cases h <;> cases h' <;> (try simp_all) <;> omega

/-- Which check fails first does not depend on the input (10_state.md R38). -/
theorem raises_withAnswers {i : Instr} {s : State} {k : ErrorKind} {info : FaultInfo} (h : Raises i s k info)
    (l : List HostAnswer) : Raises i (s.withAnswers l) k info := by
  cases h <;> constructor <;> assumption

/-- Only IN's effect reads the input or takes from it (10_state.md R38). -/
theorem effect_withAnswers {i : Instr} {s t : State} (h : Effect i s t) (hi : ∀ r, i ≠ .inp r) (l : List HostAnswer) :
    t.answers = s.answers ∧ Effect i (s.withAnswers l) (t.withAnswers l) := by
  cases h with
  | mover hr ha => exact ⟨rfl, .mover (s := s.withAnswers l) hr ha⟩
  | movem hr ha => exact ⟨rfl, .movem (s := s.withAnswers l) hr ha⟩
  | add h0 h1 ha => exact ⟨rfl, .add (s := s.withAnswers l) h0 h1 ha⟩
  | sub h0 h1 ha => exact ⟨rfl, .sub (s := s.withAnswers l) h0 h1 ha⟩
  | halt => exact ⟨rfl, .halt (s := s.withAnswers l)⟩
  | inpValue => exact absurd rfl (hi _)
  | inpRejected => exact absurd rfl (hi _)
  | out hr => exact ⟨rfl, .out (s := s.withAnswers l) hr⟩

/-- At most one check is the first to fail. -/
theorem raises_det {i : Instr} {s : State} {k k' : ErrorKind} {info info' : FaultInfo} (h : Raises i s k info)
    (h' : Raises i s k' info') : k = k' ∧ info = info' := by
  cases h <;> cases h' <;> (try simp_all) <;> omega

/-- An instruction whose checks pass completes with its effect. -/
theorem exec_of_effect {i : Instr} {s t : State} (h : Effect i (s.advance i.length) t) : exec i s = .next t := by
  rcases exec_cases i s with ⟨u, e, h'⟩ | ⟨k, info, e, h'⟩ | ⟨e, ha, r, hr, rfl⟩
  · rw [e, effect_det h h']
  · exact (effect_not_raises h h').elim
  · cases h <;> simp_all

/-- An instruction with a failing check enters `Faulted` at the first. -/
theorem exec_of_raises {i : Instr} {s : State} {k : ErrorKind} {info : FaultInfo} (h : Raises i (s.advance i.length) k info) :
    exec i s = .next ((s.advance i.length).enterFaulted k info s.pc) := by
  rcases exec_cases i s with ⟨u, e, h'⟩ | ⟨k', info', e, h'⟩ | ⟨e, ha, r, hr, rfl⟩
  · exact (effect_not_raises h' h).elim
  · obtain ⟨rfl, rfl⟩ := raises_det h h'
    exact e
  · cases h
    omega

theorem atEnd_eq_true {s : State} : s.atEnd = true ↔ s.eof ≤ s.pc ∨ s.prog.size ≤ s.pc := by
  unfold State.atEnd
  rw [Bool.or_eq_true, decide_eq_true_iff, decide_eq_true_iff]

theorem atEnd_eq_false {s : State} : s.atEnd = false ↔ s.pc < s.eof ∧ s.pc < s.prog.size := by
  rw [← Bool.not_eq_true, atEnd_eq_true]
  omega

/-- The step of a core that is in no terminal state and not at its end, on a decoded instruction (R120). -/
theorem step_exec {s : State} {i : Instr} {n : Nat} (h1 : s.status.isTerminal = false) (h2 : s.atEnd = false)
    (h3 : s.fetch = .ok (i, n)) : step s = exec i s := by
  simp [step, State.stepWith, h1, h2, h3]

/-- The step of a core that is in no terminal state and not at its end, on a decode error (R120, R155). -/
theorem step_decodeFault {s : State} {e : DecodeError} (h1 : s.status.isTerminal = false) (h2 : s.atEnd = false)
    (h3 : s.fetch = .error e) :
    step s = .next (s.enterFaulted (DecodeError.kind e) (DecodeError.info e) s.pc) := by
  simp [step, State.stepWith, h1, h2, h3]

/-- Everything a step can do (R120). -/
theorem step_cases (s : State) :
    (s.status.isTerminal = true ∧ step s = .next s) ∨
      (s.status.isTerminal = false ∧ s.atEnd = true ∧ step s = .next { s with status := .halted }) ∨
      (s.status.isTerminal = false ∧ s.atEnd = false ∧ ∃ e, s.fetch = .error e ∧
        step s = .next (s.enterFaulted (DecodeError.kind e) (DecodeError.info e) s.pc)) ∨
      (s.status.isTerminal = false ∧ s.atEnd = false ∧ ∃ i n, s.fetch = .ok (i, n) ∧ step s = exec i s) := by
  cases h1 : s.status.isTerminal with
  | true => exact .inl ⟨rfl, by simp [step, State.stepWith, h1]⟩
  | false =>
    cases h2 : s.atEnd with
    | true => exact .inr (.inl ⟨rfl, rfl, by simp [step, State.stepWith, h1, h2]⟩)
    | false =>
      cases h3 : s.fetch with
      | error e => exact .inr (.inr (.inl ⟨rfl, rfl, e, rfl, step_decodeFault h1 h2 h3⟩))
      | ok p => exact .inr (.inr (.inr ⟨rfl, rfl, p.1, p.2, rfl, step_exec h1 h2 h3⟩))

end Sys2Proof.Machine
end

