-- ==== Sys2Proof/Laws/Fetch.lean ====
section
/-!
SUPPORT. A table word placed for the next fetch is the instruction the next step runs, in every state of canonical program memory.
-/

namespace Sys2Proof.Machine

theorem withFetchWord_atEnd {s : State} {nbits w : Nat} (h : 0 < (tableBits nbits w).length) :
    (s.withFetchWord nbits w).atEnd = false := by
  rw [atEnd_eq_false]
  simp only [State.withFetchWord, placeBits_eof, placeBits_prog, placeBits_pc]
  omega

/-- The fetch after a placement decodes the placed instruction. -/
theorem withFetchWord_fetch {s : State} {nbits w : Nat} {i : Instr} (hp : s.prog.cells.wf)
    (h : decodeTableWord nbits w = some i) :
    (s.withFetchWord nbits w).fetch = .ok (i, s.pc + i.length) := by
  simp only [decodeTableWord] at h
  split at h
  · rename_i j n hd
    cases h
    have hl := decode_ok.mp hd
    have hlen : (tableBits nbits w).length = tableLength nbits w := fieldBits_length _ _
    refine decode_transfer hd (fun k hk => ?_) ?_
    · have hk' : k < (tableBits nbits w).length := by omega
      simp only [State.progBit, State.withFetchWord, placeBits_prog, placeBits_pc]
      rw [read_writeList hp _ _ _ hk', Nat.zero_add]
      simp [bitsAt]
    · simp only [State.withFetchWord, placeBits_eof, placeBits_pc]
      omega
  · cases h

/-- The step after a placement runs the placed instruction. -/
theorem step_withFetchWord {s : State} {nbits w : Nat} {i : Instr} (hp : s.prog.cells.wf)
    (h : decodeTableWord nbits w = some i) :
    step (s.withFetchWord nbits w) = exec i (s.withFetchWord nbits w) := by
  have hf := withFetchWord_fetch hp h
  have hlen : (tableBits nbits w).length = tableLength nbits w := fieldBits_length _ _
  refine step_exec (by simp [State.withFetchWord]) (withFetchWord_atEnd ?_) hf
  simp only [decodeTableWord] at h
  split at h
  · rename_i j n hd
    cases h
    have hl := decode_ok.mp hd
    have := length_ge i
    omega
  · cases h

/-- The memories of the reset state are in canonical form. -/
theorem reset_memory_wf : State.reset.prog.wf ∧ State.reset.data.wf := by decide

end Sys2Proof.Machine
end

