-- ==== Sys2Proof/Laws/PerInstr.lean ====
section
/-!
SUPPORT. Statements made per instruction: the length of its encoding (30_encoding.md R64), about the instruction as syntax.
-/

namespace Sys2Proof.Laws.EncodedLength

/-- A well-formed instruction has an encoding, `Len(op)` bits long, that begins with its opcode field (R64, R65). -/
def Statement (i : Instr) : Prop :=
  i.wf = true → ∃ rest, encode i = .ok (fieldBits i.opcode 4 ++ rest) ∧ rest.length + 4 = i.length

theorem of_wf (i : Instr) : Statement i := fun h =>
  ⟨fieldsBits i.operandFields, encode_of_wf h, by
    have := encodedBits_length i
    simp only [Instr.fields, fieldsBits_cons, List.length_append, fieldBits_length, Config.opcodeWidth] at this
    omega⟩

theorem mover (r a : Nat) : Statement (.mover r a) := of_wf _
theorem movem (r a : Nat) : Statement (.movem r a) := of_wf _
theorem add (r0 r1 a : Nat) : Statement (.add r0 r1 a) := of_wf _
theorem sub (r0 r1 a : Nat) : Statement (.sub r0 r1 a) := of_wf _
theorem halt : Statement .halt := of_wf _
theorem inp (r : Nat) : Statement (.inp r) := of_wf _
theorem out (r : Nat) : Statement (.out r) := of_wf _

end Sys2Proof.Laws.EncodedLength
end

