-- ==== Sys2Proof/Laws/Readback.lean ====
section
/-!
SUPPORT. The read-back shows every field of the state tuple of 10_state.md R38 and nothing else: between states whose memories are in
canonical form it is one to one.
-/

namespace Sys2Proof.Machine

variable {w : Nat}

@[simp] theorem contents_length (m : AddressSpace w) : m.contents.length = m.size := by
  simp [AddressSpace.contents]

theorem contents_getElem (m : AddressSpace w) {a : Nat} (h : a < m.contents.length) : m.contents[a] = m.cells.read a := by
  simp [AddressSpace.contents]

/-- A cell outside a canonical memory reads as 0. -/
theorem read_of_size_le {m : AddressSpace w} (hm : m.wf) {a : Nat} (h : m.size ≤ a) : m.cells.read a = 0 :=
  read_of_not_mem (fun c hc => by have := hm.2 c hc; omega)

/-- Canonical memories of equal contents are the same data. -/
theorem contents_injective {m n : AddressSpace w} (hm : m.wf) (hn : n.wf) (h : m.contents = n.contents) : m = n := by
  have hs : m.size = n.size := by simpa using congrArg List.length h
  have hc : m.cells = n.cells := by
    refine ext_of_read hm.1 hn.1 (fun a => ?_)
    by_cases ha : a < m.size
    · rw [← contents_getElem m (by simpa using ha), ← contents_getElem n (by simpa [← hs] using ha)]
      simp only [h]
    · rw [read_of_size_le hm (by omega), read_of_size_le hn (by omega)]
  cases m
  cases n
  simp_all

/-- Two cores the host reads back alike are the same. -/
theorem readback_injective {s t : CoreState} (hs : s.prog.wf ∧ s.data.wf) (ht : t.prog.wf ∧ t.data.wf)
    (h : s.readback = t.readback) : s = t := by
  have hp := contents_injective hs.1 ht.1 (congrArg Readback.prog h)
  have hd := contents_injective hs.2 ht.2 (congrArg Readback.data h)
  have hr : s.regs = t.regs := Vector.toList_inj.mp (congrArg Readback.regs h)
  have h1 := congrArg Readback.pc h
  have h2 := congrArg Readback.eof h
  have h3 := congrArg Readback.status h
  have h4 := congrArg Readback.fault h
  have h5 := congrArg Readback.trace h
  cases s
  cases t
  simp_all [CoreState.readback]

end Sys2Proof.Machine
end

