-- ==== Sys2Proof/Tests/Slice0.lean ====
section
/-!
SUPPORT. The model's own tests. Expected results come from the vectors of 95_test_vectors.md (named in each comment) or from the rule
named there by hand. A theorem `test_…` checks a result; a theorem `witness_…` shows that the hypotheses of one statement of
Certificates/Slice0/Obligations.lean are met together, clause by clause, at boundary values.
-/

namespace Sys2Proof.Tests

open Sys2Proof Sys2Proof.Machine

/-! ## Helpers -/

/-- The next state of an outcome. -/
def nextOf (o : Host.Outcome State Fault Refusal) : Option State :=
  match o with
  | .next t => some t
  | .fault _ => none
  | .refused _ => none

/-- The register contents `b`. -/
def w (b : Nat) : Slot := .val (BitVec.ofNat 8 b)

/-- Nothing written. -/
def u : Slot := .unwritten

/-- A core in `Ready` with the program of an image, registers and data cells given, and no answer waiting. -/
def machine (image : List Bits8) (eof : Nat) (regs : Vector Slot 4) (cells : List Bits8) : State :=
  { State.loaded { progSize := 8 * image.length, dataSize := cells.length } image eof cells with regs := regs }

/-- Registers -56, unwritten, 127, unwritten over eight data cells, the last 0xFF: a non-reference `DATA_SIZE`. -/
def small : State := machine [] 0 #v[w 200, u, w 127, u] [7, 1, 0, 0, 0, 15, 0, 0xFF]

/-- The program P1 of 95_test_vectors.md, with `D[5]` = 15, in the state given. -/
def p1 : State := machine [0x01, 0x44, 0x64] 24 #v[u, u, u, u] [0, 0, 0, 0, 0, 15, 0, 0]

/-- One instruction IN R1 (bits 010101), waiting for its answer. -/
def atIn : State := machine [0x54] 6 #v[u, u, u, u] [0]

/-- One instruction OUT R3 (bits 011011), as P6. -/
def atOut : State := machine [0x6D, 0x00] 10 #v[u, u, u, u] [0]

/-- The P2-like image IN R1, OUT R1, HALT: 6 + 6 + 4 bits. -/
def io : State := machine [0x55, 0x94] 16 #v[u, u, u, u] [0]

/-! ## Well-formedness: an ill-formed term for each check, and its well-formed neighbour -/

theorem test_wf_mover : (Instr.mover 4 0).wf = false ∧ (Instr.mover 0 16).wf = false ∧ (Instr.mover 3 15).wf = true := by decide
theorem test_wf_movem : (Instr.movem 4 0).wf = false ∧ (Instr.movem 0 16).wf = false ∧ (Instr.movem 3 15).wf = true := by decide
theorem test_wf_add : (Instr.add 4 0 0).wf = false ∧ (Instr.add 0 4 0).wf = false ∧ (Instr.add 0 0 16).wf = false ∧
    (Instr.add 3 3 15).wf = true := by decide
theorem test_wf_sub : (Instr.sub 4 0 0).wf = false ∧ (Instr.sub 0 4 0).wf = false ∧ (Instr.sub 0 0 16).wf = false ∧
    (Instr.sub 3 3 15).wf = true := by decide
theorem test_wf_io : (Instr.inp 4).wf = false ∧ (Instr.out 4).wf = false ∧ (Instr.inp 3).wf = true ∧ (Instr.out 3).wf = true ∧
    Instr.halt.wf = true := by decide

/-! ## Decoding and encoding: words written out bit by bit from 95_test_vectors.md 2.2 -/

theorem test_decode_mover : decode (bitsAt 0 [0, 0, 0, 0, 1, 0, 1, 0, 0, 1]) 10 0 = .ok (.mover 2 9, 10) := by decide
theorem test_decode_movem : decode (bitsAt 0 [0, 0, 0, 1, 0, 1, 1, 0, 1, 0]) 10 0 = .ok (.movem 1 10, 10) := by decide
theorem test_decode_add : decode (bitsAt 0 [0, 0, 1, 0, 0, 1, 1, 0, 0, 1, 1, 1]) 12 0 = .ok (.add 1 2 7, 12) := by decide
theorem test_decode_sub : decode (bitsAt 0 [0, 0, 1, 1, 0, 0, 1, 1, 1, 1, 0, 0]) 12 0 = .ok (.sub 0 3 12, 12) := by decide
theorem test_decode_halt : decode (bitsAt 5 [0, 1, 0, 0]) 9 5 = .ok (.halt, 9) := by decide
theorem test_decode_in : decode (bitsAt 0 [0, 1, 0, 1, 1, 1]) 6 0 = .ok (.inp 3, 6) := by decide
theorem test_decode_out : decode (bitsAt 0 [0, 1, 1, 0, 0, 0, 1]) 7 0 = .ok (.out 0, 6) := by decide

theorem test_encode_words : encode (.mover 3 15) = .ok [0, 0, 0, 0, 1, 1, 1, 1, 1, 1] ∧
    encode (.movem 3 15) = .ok [0, 0, 0, 1, 1, 1, 1, 1, 1, 1] ∧ encode (.add 3 3 15) = .ok [0, 0, 1, 0, 1, 1, 1, 1, 1, 1, 1, 1] ∧
    encode (.sub 0 3 12) = .ok [0, 0, 1, 1, 0, 0, 1, 1, 1, 1, 0, 0] ∧ encode .halt = .ok [0, 1, 0, 0] ∧
    encode (.inp 0) = .ok [0, 1, 0, 1, 0, 0] ∧ encode (.out 1) = .ok [0, 1, 1, 0, 0, 1] := by decide

/-- R65 on integers: a negative value, one too large, a wrong count, the largest values, and the packer left as it was. -/
theorem test_encode_operands : encodeOperands moverRow [-1, 0] = .error (.encoding (-1) 2) ∧
    encodeOperands addRow [0, 3, -7] = .error (.encoding (-7) 4) ∧ encodeOperands moverRow [4, -1] = .error (.encoding 4 2) ∧
    encodeOperands addRow [0, 1] = .error (.operandCount 3 2) ∧
    encodeOperands movemRow [3, 15] = .ok [0, 0, 0, 1, 1, 1, 1, 1, 1, 1] ∧
    BitWriter.empty.writeOperands moverRow [0, -1] = .error (.encoding (-1) 4) ∧
    BitWriter.empty.write (-1) 4 = .error (.negative (-1)) := by decide

/-- D1 to D6 of 95_test_vectors.md 2.3. -/
theorem test_decode_refused : decode (bitsAt 0 [0, 1, 0]) 3 0 = .error (.truncated 4 3) ∧
    decode (bitsAt 0 [0, 1, 1, 1]) 4 0 = .error (.unknownOpcode 7) ∧
    decode (bitsAt 0 [1, 1, 1, 1, 0, 0]) 6 0 = .error (.unknownOpcode 15) ∧
    decode (bitsAt 0 [1]) 12 0 = .error (.unknownOpcode 8) ∧
    decode (bitsAt 0 [0, 0, 1, 0, 0, 0, 0, 1]) 8 0 = .error (.truncated 12 8) ∧
    decode (bitsAt 0 []) 6 0 = .error (.truncated 10 6) := by decide

/-- The host's words (`W` hex of 2.2), exact or rounded to bytes, and two words of no row. -/
theorem test_table_words : decodeTableWord 10 0x03F = some (.mover 3 15) ∧ decodeTableWord 10 0x07F = some (.movem 3 15) ∧
    decodeTableWord 12 0x2FF = some (.add 3 3 15) ∧ decodeTableWord 12 0x3FF = some (.sub 3 3 15) ∧
    decodeTableWord 4 4 = some .halt ∧ decodeTableWord 6 0x14 = some (.inp 0) ∧ decodeTableWord 6 0x1B = some (.out 3) ∧
    decodeTableWord 4 7 = none ∧ decodeTableWord 6 0x3C = none := by decide

/-- Every row's word, stored where the next step fetches it, runs as the first instruction after reset. -/
theorem test_fetch_word : ((nextOf (step (State.reset.withFetchWord 10 0x029))).map fun t => (t.pc, t.regs[2]?)) = some (10, some (w 0)) ∧
    ((nextOf (step (State.reset.withFetchWord 4 4))).map fun t => t.status) = some .halted ∧
    ((nextOf (step (State.reset.withFetchWord 12 0x267))).map fun t => t.fault.map fun f => f.info) = some (some (.index 2)) := by decide

/-- The lengths are four bits and the widths of the table. -/
theorem test_lengths : opcodeTable.all (fun row => lenOf row.opcode == 4 + (row.operands.map Prod.snd).sum) = true := by decide

/-- C1 and C2 of 2.1. -/
theorem test_packer : ((BitWriter.empty.writeFields [(5, 3), (1, 1), (3, 2), (10, 4)]).toOption.map fun wr => wr.flush.emitted) =
      some [0xBE, 0x80] ∧
    ((BitWriter.empty.writeFields [(5, 3), (1, 1), (3, 2), (10, 4)]).toOption.map fun wr => wr.flush.flush.emitted) =
      some [0xBE, 0x80] := by decide

set_option maxRecDepth 4000 in
/-- C3, C4, C5 of 2.1, and U11. -/
theorem test_packer_widths : BitWriter.empty.write 8 3 = .error (.encoding 8 3) ∧
    ((BitWriter.empty.write 0 1).toOption.map fun wr => wr.bits) = some [0] ∧
    ((BitWriter.empty.write 0xFFFFFFFF 32).toOption.map fun wr => wr.emitted) = some [0xFF, 0xFF, 0xFF, 0xFF] ∧
    BitWriter.empty.write 0 0 = .error (.badWidth 0) ∧ BitWriter.empty.write 0 33 = .error (.badWidth 33) ∧
    (BitReader.ofBytes [0]).read 33 = .error (.badWidth 33) := by decide

/-- C6, C7 of 2.1. -/
theorem test_unpacker : (((BitReader.ofBytes [0x01, 0x44, 0x64]).read 4).toOption.map Prod.fst) = some 0 ∧
    ({ buffer := [0, 0, 0, 0, 0, 0], source := [] } : BitReader).read 10 = .error (.truncated 10 6) := by decide

/-- C8, C9 of 2.1. -/
theorem test_field : field p1.progBit 6 4 = 5 ∧ field p1.progBit 10 4 = 1 := by decide

/-! ## The instructions -/

/-- M1, M2 of 2.4: the pattern is copied, and 0xFF reads -1. -/
theorem test_mover : ((nextOf (exec (.mover 0 5) small)).map fun t => (t.regs[0]?, t.data.cells.read 5)) = some (some (w 15), 15) ∧
    ((nextOf (exec (.mover 3 7) small)).map fun t => t.regs[3]?) = some (some (.val (bits8 (-1)))) := by decide

/-- M3, M5 of 2.4. -/
theorem test_movem : ((nextOf (exec (.movem 0 0) small)).map fun t => t.data.cells.read 0) = some 0xC8 ∧
    ((nextOf (exec (.movem 2 1) { small with data := { size := 8, cells := [(1, 127)] } })).map fun t => t.data.cells) =
      some [(1, 127)] := by decide

/-- M4 of 2.4 and F5 of 2.8: the register check comes before the address check. -/
theorem test_movem_faults : ((nextOf (exec (.movem 1 4) small)).map fun t => (t.status, t.pc, t.fault)) =
      some (.faulted, 10, some { kind := .unwrittenRegister, code := 5, pc := 0, info := .index 1 }) ∧
    ((nextOf (exec (.movem 1 9) small)).map fun t => t.fault.map fun f => f.kind) = some (some .unwrittenRegister) := by decide

/-- The sums of 2.5, and the same register as source and destination. -/
theorem test_add : (add8 127 1 = 0x80 ∧ add8 0x80 0xFF = 0x7F ∧ add8 100 100 = 0xC8 ∧ add8 5 0xFD = 2 ∧ add8 64 64 = 0x80) ∧
    ((nextOf (exec (.add 1 1 4) (machine [] 0 #v[u, w 60, u, u] [0, 0, 0, 0, 70]))).map fun t => t.regs[1]?) =
      some (some (.val (bits8 (-126)))) := by decide

/-- The differences of 2.5, and an unwritten destination. -/
theorem test_sub : (sub8 1 2 = 0xFF ∧ sub8 0x80 1 = 0x7F ∧ sub8 127 0xFF = 0x80 ∧ sub8 0 0x80 = 0x80 ∧ sub8 5 0xFD = 8) ∧
    ((nextOf (exec (.sub 0 2 1) (machine [] 0 #v[u, u, w 5, u] [0, 1]))).map fun t => t.regs[0]?) = some (some (w 4)) := by decide

/-- K2, K5 of 2.6: HALT at pc 10 with `eof` 24 leaves pc 24. -/
theorem test_halt : ((nextOf (exec .halt { p1 with pc := 10 })).map fun t => (t.status, t.pc)) = some (.halted, 24) ∧
    ((nextOf (step (machine [0x40] 4 #v[u, u, u, u] [0]))).map fun t => (t.status, t.pc)) = some (.halted, 4) := by decide

/-- 2.7: the conversion of an answer, and the example of R140. -/
theorem test_in : ([0, 1, -1, 127, 128, -128, -129, 200, 255, 256, -256, 1000, -1000].map fun n => int8 (bits8 n)) =
      [0, 1, -1, 127, -128, -128, 127, -56, -1, 0, 0, -24, 24] ∧
    ((nextOf (step (atIn.deliver (.value (-5))))).map fun t => (t.pc, t.regs[1]?, t.trace)) =
      some (6, some (w 0xFB), [.inp 0xFB]) := by decide

/-- 2.7: a parse failure leaves the register, and advances; without an answer nothing changes. -/
theorem test_in_other : ((nextOf (step (atIn.deliver .parseFailure))).map fun t => (t.pc, t.regs[1]?, t.trace, t.status)) =
      some (6, some u, [.inRejected], .running) ∧ nextOf (step atIn) = some atIn := by decide

/-- 2.7: what OUT emits, and the example of R142. -/
theorem test_out : ([0, 1, 0x7F, 0x80, 0x81, 0xFF].map int8) = [0, 1, 127, -128, -127, -1] ∧
    ((nextOf (exec (.out 0) small)).map fun t => t.trace) = some [.out (-56)] := by decide

/-- F2 of 2.8 (P6). -/
theorem test_out_unwritten : ((nextOf (step atOut)).map fun t => (t.status, t.pc, t.fault, t.trace)) =
    some (.faulted, 6, some { kind := .unwrittenRegister, code := 5, pc := 0, info := .index 3 }, []) := by decide

/-- `Step(s, resp)` on the core alone: the answer is an input, and without it the IN is not taken. -/
theorem test_core_step : atIn.toCoreState.step none = .next atIn.toCoreState ∧
    p1.toCoreState.step none = p1.toCoreState.step (some .parseFailure) := ⟨rfl, rfl⟩

/-! ## Faults and loads -/

/-- F1 (P3) and F3 (P4) of 2.8. -/
theorem test_decode_faults : ((nextOf (step { machine [0x00, 0xDD, 0x00] 18 #v[w 7, u, u, u] [0] with pc := 10 })).map
      fun t => (t.fault, t.pc)) = some (some { kind := .unknownOpcode, code := 2, pc := 10, info := .opcode 7 }, 10) ∧
    ((nextOf (step { machine [0x00, 0x44, 0x20] 15 #v[w 42, u, u, u] [0] with pc := 10 })).map
      fun t => (t.fault, t.pc)) = some (some { kind := .truncatedStream, code := 1, pc := 10, info := .bits 10 5 }, 10) := by decide

/-- The load outcome's reason. -/
def reasonOf (x : Except LoadReason State) : Option LoadReason :=
  match x with
  | .ok _ => none
  | .error reason => some reason

set_option maxRecDepth 4000 in
/-- L1 to L5 of 2.10. -/
theorem test_load : reasonOf (instantiate { progSize := 24, dataSize := 1 } [0x01, 0x44, 0x64] 24 [0]) = none ∧
    reasonOf (instantiate { progSize := 24, dataSize := 1 } [0x01, 0x44, 0x64] 25 [0]) = some .eofBeyondImage ∧
    reasonOf (instantiate Config.Params.reference (List.replicate 33 0) 0 []) = some .imageTooLarge ∧
    reasonOf (instantiate Config.Params.reference [] 0 (List.replicate 255 0)) = some .dataImageSize ∧
    reasonOf (instantiateContainer Config.Params.reference [0x00, 0x18, 0x01, 0x44] []) = some .containerLength ∧
    LoadReason.code .eofBeyondImage = 32 ∧ makeContainer [0x01, 0x44, 0x64] 24 = [0x00, 0x18, 0x01, 0x44, 0x64] := by decide

/-- What the host reads back of a state (R36, R38). -/
theorem test_readback : (small.readback.regs, small.readback.data) =
      ([w 200, u, w 127, u], [7, 1, 0, 0, 0, 15, 0, 0xFF]) ∧
    ({ atIn with trace := [.out 3] }.readback.prog, { atIn with trace := [.out 3] }.readback.trace) =
      ([0, 1, 0, 1, 0, 1, 0, 0], [.out 3]) := by decide

/-! ## The assembler -/

/-- A1 to A3, A5 to A8 and A10 of 2.9. -/
theorem test_assembler_errors : assembleStatement "ADD" ["R0", "R1"] = .error (.count 3 2) ∧
    assembleStatement "MOVER" ["R0", "16"] = .error (.encoding 16 4) ∧ assembleStatement "MOVER" ["R4", "1"] = .error (.encoding 4 2) ∧
    assemble [["mover", "R0", "1"]] = .aborted [{ statement := 1, info := .mnemonic "mover" }] ∧
    assembleStatement "MOVER" ["5", "R0"] = .error (.operand "5" 0) ∧ assembleStatement "OUT" ["r1"] = .error (.operand "r1" 0) ∧
    assembleStatement "MOVER" ["R0", "-1"] = .error (.operand "-1" 1) ∧ assembleStatement "HALT" ["R0"] = .error (.count 0 1) := by
  decide

/-- A4, A9 of 2.9, and the forms R84 refuses. -/
theorem test_assembler_operands : assembleStatement "MOVER" ["R3", "15"] = .ok (.mover 3 15) ∧
    assembleStatement "MOVER" ["R0", "007"] = .ok (.mover 0 7) ∧
    ["R10", "+3", "0x5", "", "R"].map (fun t => classifyChars t.toList) = [none, none, none, none, none] := by decide

/-- A11 and A12 of 2.9: a skipped statement, and a blank one, which is counted. -/
theorem test_assembler_run : assemble [["MOVER", "R0", "5"], ["ADD", "R0", "R1"], ["HALT"]] =
      .assembled [0x01, 0x50] 14 [.mover 0 5, .halt] [{ statement := 2, info := .count 3 2 }] ∧
    assemble [[], ["HALT", "R0"]] = .assembled [] 0 [] [{ statement := 2, info := .count 0 1 }] := by decide

/-- S1 from its three source lines (R81), with a comment and a blank line. -/
theorem test_assembler_text : assembleText "MOVER R0,5 ; load\n\nMOVEM  R0 , 6\nHALT".toList =
    .assembled [0x01, 0x44, 0x64] 24 [.mover 0 5, .movem 0 6, .halt] [] := by decide

/-- A13 of 2.9 and A14's first line. -/
theorem test_mirror : mirrorLine false (.add 1 2 7) = "001001100111\n".toList ∧
    mirrorLine true (.add 1 2 7) = "0010 01 10 0111\n".toList ∧ mirrorLine true (.mover 0 5) = "0000 00 0101\n".toList := by decide

/-! ## Witnesses: the hypotheses of each statement, met together -/

/-- MoverCopiesCellToRegister, DispatchFaultPriority: the first register and the first cell that do not exist, the last that do. -/
theorem witness_mover : (4 ≤ 4) ∧ (3 < 4 ∧ small.data.size ≤ 8) ∧ (3 < 4 ∧ 7 < small.data.size) ∧
    ((nextOf (exec (.mover 4 0) small)).map fun t => t.fault.map fun f => (f.kind, f.info)) =
      some (some (.invalidRegister, .index 4)) ∧
    ((nextOf (exec (.mover 3 8) small)).map fun t => t.fault.map fun f => (f.kind, f.info)) = some (some (.outOfBounds, .address 8)) := by
  decide

/-- MovemStoresRegister: each clause. -/
theorem witness_movem : (4 ≤ 4) ∧ small.regs[1]? = some .unwritten ∧ (small.regs[2]? = some (.val 127) ∧ small.data.size ≤ 8) ∧
    (small.regs[2]? = some (.val 127) ∧ 7 < small.data.size ∧ small.data.wf) ∧
    ((nextOf (exec (.movem 2 8) small)).map fun t => t.fault.map fun f => (f.kind, f.info)) = some (some (.outOfBounds, .address 8)) := by
  decide

/-- AddWritesWrappedSum, SubWritesWrappedDifference, DispatchFaultPriority: each clause. -/
theorem witness_arith : (4 ≤ 4) ∧ (3 < 4 ∧ 4 ≤ 4) ∧ (3 < 4 ∧ small.regs[3]? = some .unwritten) ∧
    (3 < 4 ∧ small.regs[2]? = some (.val 127) ∧ small.data.size ≤ 8) ∧
    (3 < 4 ∧ small.regs[2]? = some (.val 127) ∧ 7 < small.data.size) ∧
    ((nextOf (exec (.add 0 4 0) small)).map fun t => t.fault.map fun f => (f.kind, f.info)) =
      some (some (.invalidRegister, .index 4)) ∧
    ((nextOf (exec (.sub 3 2 8) small)).map fun t => t.fault.map fun f => (f.kind, f.info)) =
      some (some (.outOfBounds, .address 8)) := by decide

/-- InConsumesOneAnswer: each clause. -/
theorem witness_in : (4 ≤ 4) ∧ (3 < 4 ∧ (small.deliver (.value 7)).answers = .value 7 :: []) ∧
    (3 < 4 ∧ (small.deliver .parseFailure).answers = .parseFailure :: []) ∧
    ((nextOf (exec (.inp 4) small)).map fun t => t.fault.map fun f => f.info) = some (some (.index 4)) := by decide

/-- InWaitsForItsAnswer, NoStepReturnsToReady: a core in `Ready` waiting at its first instruction. -/
theorem witness_waits : atIn.Waits ∧ step atIn = .next atIn ∧ atIn.status = .ready :=
  ⟨⟨by decide, by decide, by decide, 1, 6, by decide, by decide⟩, rfl, rfl⟩

/-- OutEmitsSignedValue: each clause. -/
theorem witness_out : (4 ≤ 4) ∧ small.regs[3]? = some .unwritten ∧ small.regs[0]? = some (.val 0xC8) := by decide

/-- InValueKeepsLowEightBits: both ends of the range; SignedViewOfArithmetic: both ways out of it. -/
theorem witness_signed : (int8 (bits8 (-128)) = -128 ∧ int8 (bits8 127) = 127) ∧
    int8 (add8 127 1) ≠ int8 127 + int8 1 ∧ int8 (sub8 0x80 1) ≠ int8 0x80 - int8 1 := by decide

/-- RegisterFileChecks: each clause at the last register and the first that does not exist. -/
theorem witness_registers : (4 ≤ 4) ∧ (3 < 4 ∧ small.regs[3]? = some .unwritten) ∧ (2 < 4 ∧ small.regs[2]? = some (.val 127)) := by
  decide

/-- DataReadAfterWrite: each clause. -/
theorem witness_data : small.data.size ≤ 8 ∧ (small.data.wf ∧ 7 < small.data.size) ∧
    ({ size := 8, cells := [(2, 5)] } : AddressSpace 8).wf := by decide

/-- StepAlwaysAnswers: a step that takes an answer away, and one at an instruction other than IN. -/
theorem witness_answers : ((nextOf (step (atIn.deliver .parseFailure))).map fun t => t.answers) = some [] ∧
    (∀ r n, p1.fetch ≠ .ok (.inp r, n)) := by
  refine ⟨by decide, fun r n h => ?_⟩
  have h1 : p1.fetch = .ok (.mover 0 5, 10) := by decide
  rw [h1] at h
  cases h

/-- OnlyHandlersWrite: a step that changes a register, and one that changes a cell. -/
theorem witness_writes : ((nextOf (step p1)).map fun t => decide (t.regs[0]? ≠ p1.regs[0]?)) = some true ∧
    ((nextOf (step { p1 with pc := 10, regs := #v[w 15, u, u, u] })).map fun t => decide (t.data.cells.read 6 ≠ p1.data.cells.read 6)) =
      some true := by decide

/-- TraceGrowsInOrder: a step that adds an event. -/
theorem witness_trace : ((nextOf (step { io with pc := 6, regs := #v[u, w 9, u, u], status := .running })).map fun t => t.trace) =
    some [.out 9] := by decide

/-- StepRunsDecodedInstruction, AdvanceBeforeExecute (completed), PcChangesTwoWays. -/
theorem witness_step : p1.status.isTerminal = false ∧ p1.pc < p1.eof ∧ p1.pc < p1.prog.size ∧ p1.atEnd = false ∧
    p1.fetch = .ok (.mover 0 5, 10) ∧ p1.pc ≤ p1.eof ∧ ((nextOf (step p1)).map fun t => (t.status, t.pc)) = some (.running, 10) := by
  decide

/-- TerminalStepChangesNothing, EndCheckHalts: K1, K3, K4 and K6 of 95_test_vectors.md. -/
theorem witness_terminal : ({ p1 with status := .halted } : State).status = .halted ∧
    ({ p1 with status := .faulted } : State).status = .faulted ∧
    (small.status = .ready ∧ small.eof ≤ small.pc) ∧
    (({ p1 with status := .running, pc := 24 } : State).status = .running ∧
      ({ p1 with status := .running, pc := 24 } : State).eof ≤ ({ p1 with status := .running, pc := 24 } : State).pc) := by decide

/-- AdvanceBeforeExecute, FaultEntryChangesNothingElse, FaultKindsByStage: a decode fault and a dispatch fault. -/
theorem witness_faults : (({ p1 with eof := 3 } : State).atEnd = false ∧ ({ p1 with eof := 3 } : State).fetch = .error (.truncated 4 3) ∧
      ((nextOf (step { p1 with eof := 3 })).map fun t => t.status) = some .faulted) ∧
    atOut.atEnd = false ∧ atOut.fetch = .ok (.out 3, 6) ∧ ((nextOf (step atOut)).map fun t => t.status) = some .faulted := by decide

/-- The invariant in a state that no load gives: P1 after its first instruction. StepKeepsInvariant, RunsEndUnlessAnInWaits,
PcFitsItsWidth. -/
theorem witness_invariant : ({ p1 with pc := 10, status := .running, regs := #v[w 15, u, u, u] } : State).Inv where
  pc_le := by decide
  eof_le := by decide
  prog_wf := by decide
  data_wf := by decide
  ready := by decide
  halted := by decide
  faulted := by decide
  fault_good := by intro f h; cases h
  trace_good := by intro e h; cases h

/-- ReachableStatesMeetInvariant, ProgramIsConstant, HaltedMeansPcAtEof: K2, halted by HALT. -/
theorem witness_halted : Reachable { progSize := 8, dataSize := 1 } [0x40] 4 [0]
      { machine [0x40] 4 #v[u, u, u, u] [0] with pc := 4, status := .halted } ∧
    ({ machine [0x40] 4 #v[u, u, u, u] [0] with pc := 4, status := .halted } : State).status = .halted :=
  ⟨.step (.load (s := machine [0x40] 4 #v[u, u, u, u] [0]) (by decide) rfl) rfl, rfl⟩

/-- FaultRecordWrittenOnce: P6, faulted. -/
theorem witness_faulted : ∃ s, Reachable { progSize := 16, dataSize := 1 } [0x6D, 0x00] 10 [0] s ∧
    s.fault = some { kind := .unwrittenRegister, code := 5, pc := 0, info := .index 3 } ∧ step s = .next s :=
  ⟨_, .step (.load (s := atOut) (by decide) rfl) rfl, rfl, rfl⟩

set_option maxRecDepth 4000 in
/-- ReachableFaultKinds, ResetValues, LoadRefusals: a load with the reference parameters whose first step faults. -/
theorem witness_reference : ∃ s t f, instantiate Config.Params.reference [0x6D, 0x00] 10 (List.replicate 256 0) = .ok s ∧
    Reachable Config.Params.reference [0x6D, 0x00] 10 (List.replicate 256 0) t ∧ t.fault = some f ∧ f.kind = .unwrittenRegister :=
  ⟨_, _, _, rfl, .step (.load (by decide) rfl) rfl, rfl, rfl⟩

/-- DecodeFaultPriority, IllegalOpcodesFault: 3 bits left, then opcode 7 in the last 4 bits, then 9 of the 10 bits of a MOVER. -/
theorem witness_decode_faults : (({ p1 with eof := 3 } : State).pc < 3 ∧ ({ p1 with eof := 3 } : State).pc < p1.prog.size) ∧
    (field (machine [0x70] 4 #v[u, u, u, u] [0]).progBit 0 4 = 7 ∧ 4 ≤ (machine [0x70] 4 #v[u, u, u, u] [0]).eof) ∧
    (field p1.progBit 0 4 = 0 ∧ 4 ≤ 9 ∧ 9 < lenOf 0) := by decide

/-- DecodeIsTotalAndLocal: two programs alike up to the end marker and different after it. -/
theorem witness_local : (∀ b, 0 ≤ b → b < 4 → bitsAt 0 [0, 1, 0, 0, 0] b = bitsAt 0 [0, 1, 0, 0, 1] b) ∧
    bitsAt 0 [0, 1, 0, 0, 0] 4 ≠ bitsAt 0 [0, 1, 0, 0, 1] 4 := by
  refine ⟨fun b _ hb => ?_, by decide⟩
  interval_cases b <;> rfl

/-- FormatsAndLengths, MirrorShowsTheEncoding, EncodeOfDecodeIsTheProgram, DecodeOfEncodeIsIdentity: one instruction of each format. -/
theorem witness_formats : encode .halt = .ok [0, 1, 0, 0] ∧ encode (.inp 3) = .ok [0, 1, 0, 1, 1, 1] ∧
    encode (.movem 1 10) = .ok [0, 0, 0, 1, 0, 1, 1, 0, 1, 0] ∧
    encode (.sub 0 3 12) = .ok [0, 0, 1, 1, 0, 0, 1, 1, 1, 1, 0, 0] ∧
    (∀ k < 6, bitsAt 5 [0, 1, 0, 1, 1, 1] (5 + k) = [0, 1, 0, 1, 1, 1].getD k 0) ∧
    decode (bitsAt 5 [0, 1, 0, 1, 1, 1]) 11 5 = .ok (.inp 3, 11) := by decide

/-- EncodeChecksEveryField: each clause, with an ill-formed instruction whose first field fits, and a packer inside a byte. -/
theorem witness_encode : (Instr.mover 3 16).wf = false ∧ ({ emitted := [1], acc := [1, 0, 1] } : BitWriter).acc.length < 8 ∧
    encode (.mover 3 16) = .error (.encoding 16 4) ∧ moverRow ∈ opcodeTable ∧ [3].length ≠ moverRow.operands.length ∧
    ([3, -1].length = moverRow.operands.length ∧ [3, -1].zip moverRow.widths = [(3, 2)] ++ (-1, 4) :: [] ∧
      (∀ f ∈ [((3 : Int), 2)], 0 ≤ f.1 ∧ f.1 < 2 ^ f.2) ∧ (-1 : Int) < 0) ∧ (2 : Int) ^ 4 ≤ 16 ∧
    (∀ f ∈ [(3 : Int), 15].zip moverRow.widths, 0 ≤ f.1 ∧ f.1 < 2 ^ f.2) := by decide

/-- DispatchFaultPriority, last clause: 16 cells, a well-formed instruction, and its fault. -/
theorem witness_priority : ∃ s : State, s.status ≠ .faulted ∧ (Instr.out 3).wf = true ∧ 16 ≤ s.data.size ∧
    ExecFaults (.out 3) s 6 .unwrittenRegister 5 (.index 3) :=
  ⟨State.reset, by decide, by decide, by decide, _, rfl, rfl, rfl, rfl, rfl, rfl, rfl, rfl, rfl, rfl⟩

/-- LoadRefusals, ImageMapsMsbFirst, ContainerRoundTrip, ResetValues: an accepted load, and each refusal. -/
theorem witness_load : (∃ s, instantiate { progSize := 24, dataSize := 1 } [0x01, 0x44, 0x64] 24 [0] = .ok s) ∧
    24 < 8 * [0x01, 0x44, 0x64, (0 : Bits8)].length ∧ [(0x01 : Bits8), 0x44].length ≠ (256 * 0 + 24 + 7) / 8 ∧
    [(0 : Bits8)].length < 2 ∧ 24 < 65536 ∧ [(0x01 : Bits8), 0x44, 0x64].length = (24 + 7) / 8 :=
  ⟨⟨_, rfl⟩, by decide, by decide, by decide, by decide, by decide⟩

/-- FieldIsMsbFirstSum: a reader that stands at bit 6 of the image, and its read of 4 bits (C8). -/
theorem witness_reader : (∀ k < ({ buffer := [0, 1], source := [0x44, 0x64] } : BitReader).bits.length,
      p1.progBit (6 + k) = ({ buffer := [0, 1], source := [0x44, 0x64] } : BitReader).bits.getD k 0) ∧
    (({ buffer := [0, 1], source := [0x44, 0x64] } : BitReader).read 4).toOption.map Prod.fst = some 5 := by decide

/-- HighDataCellsAreInert: a cell no address reaches, and two cores that differ in it alone. -/
theorem witness_high_cells : ∃ s s' : State, s.data.wf ∧ s'.data.wf ∧ AlikeBelow16 s s' ∧ s.data.cells.read 16 ≠ s'.data.cells.read 16 ∧
    Reachable { progSize := 8, dataSize := 17 } [0x40] 4 (List.replicate 17 9) s ∧ step s ≠ .next s :=
  ⟨State.loaded { progSize := 8, dataSize := 17 } [0x40] 4 (List.replicate 17 9),
    State.loaded { progSize := 8, dataSize := 17 } [0x40] 4 (List.replicate 16 9 ++ [8]), by decide, by decide,
    ⟨by decide, by decide, by decide⟩, by decide, .load (by decide) rfl, by
      intro h
      injection h with h
      exact absurd (congrArg (fun u : State => u.status) h) (by decide)⟩

/-- The table of R150: BitReader.read raises code 1 with `need` and `available`, BitWriter.write code 16; CodesAreDistinct: an error
that has a kind. -/
theorem test_error_kinds : (match (BitReader.ofBytes [7]).read 9 with
      | .error e => (ReadError.kind e, ReadError.code e, ReadError.info e)
      | .ok _ => (none, none, none)) = (some .truncatedStream, some 1, some (.bits 9 8)) ∧
    (match BitWriter.empty.write 4 2 with
      | .error e => (WriteError.kind e, WriteError.code e)
      | .ok _ => (none, none)) = (some .encoding, some 16) := by decide

/-- WriterAppendsMsbFirst, ReaderTakesMsbFirst, FlushPadsOnce, ReaderUndoesWriter: the widths 1 and 32, the last value that fits and
the first that does not, too few bits and enough, an empty and a partial byte. -/
theorem witness_codec : ((1 ≤ 1 ∧ 1 ≤ 32 ∧ 1 < 2 ^ 1) ∧ 1 ≤ 32 ∧ 32 ≤ 32 ∧ 2 ^ 32 ≤ 4294967296) ∧
    ((BitReader.ofBytes [7]).bits.length < 9 ∧ 8 ≤ (BitReader.ofBytes [7]).bits.length) ∧
    ([] : List Bit).length < 8 ∧ [(1 : Bit)].length < 8 ∧ [(1 : Bit)] ≠ [] ∧
    (∀ f ∈ [(5, 3), (1, 1), (3, 2), (10, 4)], 1 ≤ f.2 ∧ f.2 ≤ 32 ∧ f.1 < 2 ^ f.2) := by decide

/-- ImageIsTheAcceptedEncodings, LoadedImageDecodesToSource, FailedStatementsAreSkipped: A11 assembles, and its image fits a core. -/
theorem witness_assembled : assemble [["MOVER", "R0", "5"], ["ADD", "R0", "R1"], ["HALT"]] =
      .assembled [0x01, 0x50] 14 ([.mover 0 5] ++ .halt :: []) [{ statement := 2, info := .count 3 2 }] ∧
    8 * [(0x01 : Bits8), 0x50].length ≤ Config.Params.reference.progSize ∧
    (List.replicate 256 (0 : Bits8)).length = Config.Params.reference.dataSize := by
  refine ⟨by decide, by decide, ?_⟩
  rw [List.length_replicate]
  rfl

/-- UnknownMnemonicAborts: a run that aborts at its second statement. -/
theorem witness_aborted : assemble [["HALT"], ["mover", "R0", "1"], ["HALT"]] =
    .aborted [{ statement := 2, info := .mnemonic "mover" }] := by decide

/-- StatementsAssembleByTheTable: the row of MOVER, with a wrong count, a first operand of the wrong kind, values that fit, and one that
does not. -/
theorem witness_statement : { mnemonic := "MOVER", opcode := 0, operands := [regField, addrField] } ∈ opcodeTable ∧
    ["R0"].length ≠ 2 ∧
    (BadOperandAt { mnemonic := "MOVER", opcode := 0, operands := [regField, addrField] } ["5", "R0"] 0 "5" ∧
      ∀ j < 0, ∀ t, ¬ BadOperandAt { mnemonic := "MOVER", opcode := 0, operands := [regField, addrField] } ["5", "R0"] j t) ∧
    List.Forall₂ Operand.Spells ([regField, addrField].zip [3, 15]) ["R3", "15"] ∧
    (∀ f ∈ [3, 15].zip [2, 4], f.1 < 2 ^ f.2) ∧
    List.Forall₂ Operand.Spells ([regField, addrField].zip [3, 16]) ["R3", "16"] ∧
    [3, 16].zip [2, 4] = [(3, 2)] ++ (16, 4) :: [] ∧ 2 ^ 4 ≤ 16 := by
  refine ⟨by decide, by decide, ⟨⟨rfl, .reg, 2, rfl, ?_⟩, ?_⟩, ?_, by decide, ?_, by decide, by decide⟩
  · intro op h
    have h5 : classifyChars "5".toList = some (.addr 5) := by decide
    rw [h5] at h
    cases h
    decide
  · intro j hj
    omega
  · exact .cons ⟨.reg 3, by decide, rfl, rfl⟩ (.cons ⟨.addr 15, by decide, rfl, rfl⟩ .nil)
  · exact .cons ⟨.reg 3, by decide, rfl, rfl⟩ (.cons ⟨.addr 16, by decide, rfl, rfl⟩ .nil)

end Sys2Proof.Tests
end

section
/-!
The width of `pc` (00_scope.md R10): what `Config.pcWidth` bits hold, and that `pc` and `eof` fit them.
-/

namespace Sys2Proof.Config

theorem pcWidth_two_pow (k : Nat) : pcWidth (2 ^ k) = k + 1 := by
  simp [pcWidth]

/-- `PC_WIDTH` bits hold every one of 0..`PROG_SIZE`. -/
theorem lt_two_pow_pcWidth {n progSize : Nat} (h : n ≤ progSize) : n < 2 ^ pcWidth progSize :=
  h.trans_lt Nat.lt_log2_self

end Sys2Proof.Config

namespace Sys2Proof.Machine

/-- Settles O50: 256 is `2 ^ 8`, and the invariant's `pc ≤ eof ≤ PROG_SIZE` puts both in the range the width holds. -/
theorem pcFitsItsWidth : Obligations.PcFitsItsWidth := by
  refine ⟨Config.pcWidth_two_pow 8, fun s hs => ?_⟩
  have pc_le_size : s.pc ≤ s.prog.size := hs.pc_le.trans hs.eof_le
  exact ⟨Config.lt_two_pow_pcWidth pc_le_size, Config.lt_two_pow_pcWidth hs.eof_le⟩

end Sys2Proof.Machine
end

section
/-!
Register and data accesses as the rules of 10_state.md R21, R22, R28 and R29 state them.
-/

namespace Sys2Proof.Machine

@[simp] theorem setData_data (s : State) (a : Nat) (v : Bits8) :
    (s.setData a v).data = { s.data with cells := s.data.cells.write a v } := rfl

/-- Settles O12: each clause is the rule of `regRead` or `regWrite` for that case, the state written being `setReg`. -/
theorem registerFileChecks : Obligations.RegisterFileChecks := by
  intro s i v
  refine ⟨fun hi => ⟨regRead_of_le s hi, regWrite_of_le s v hi⟩, fun _ hu => regRead_unwritten s hu,
    fun b _ hb => regRead_val s hb, fun hi => ⟨s.setReg i v, regWrite_of_lt s v hi, ?_, ?_, rfl⟩⟩
  · exact regRead_val _ (setReg_same s v hi)
  · exact fun j hj => setReg_other s v hj

/-- Memories in canonical form of one size that read alike are the same data. -/
theorem addressSpace_ext {w : Nat} {m n : AddressSpace w} (hm : m.wf) (hn : n.wf) (hsize : m.size = n.size)
    (hread : ∀ a, m.cells.read a = n.cells.read a) : m = n := by
  have hcells : m.cells = n.cells := ext_of_read hm.1 hn.1 hread
  cases m
  cases n
  simp_all

/-- Settles O13: the state written is `setData`, and the clauses are the rules of a memory write. -/
theorem dataReadAfterWrite : Obligations.DataReadAfterWrite := by
  refine ⟨fun s a v ha => ⟨dataRead_of_le s ha, dataWrite_of_le s v ha⟩, fun s a v hwf ha => ?_,
    fun m n hm hn => addressSpace_ext hm hn⟩
  refine ⟨s.setData a v, dataWrite_of_lt s v ha, ?_, ⟨rfl, fun b hb => read_write_other _ v hb⟩, set_wf hwf ha, rfl⟩
  rw [dataRead_of_lt (s.setData a v) ha, setData_data, read_write_same hwf.1]

end Sys2Proof.Machine
end

section
/-!
What a step can do, once more as one relation on the states before and after (42_control.md R120), and what an instruction's effect
and a step leave unchanged.
-/

namespace Sys2Proof.Machine

theorem step_of_terminal {s : State} (h : s.status.isTerminal = true) : step s = .next s := by
  simp [step, State.stepWith, h]

/-- The outcomes of a step (R120), one constructor per way it can go. -/
inductive Transition (s : State) : State → Prop where
  /-- A terminal state is left as it is (R121). -/
  | terminal (hterm : s.status.isTerminal = true) : Transition s s
  /-- The end check halts (R122). -/
  | endCheck (hterm : s.status.isTerminal = false) (hend : s.atEnd = true) : Transition s { s with status := .halted }
  /-- The bits at `pc` do not decode (R155). -/
  | decodeFault (hterm : s.status.isTerminal = false) (hend : s.atEnd = false) {e : DecodeError} (hfetch : s.fetch = .error e) :
      Transition s (s.enterFaulted (DecodeError.kind e) (DecodeError.info e) s.pc)
  /-- The fetched instruction completes (R123, R124). -/
  | complete (hterm : s.status.isTerminal = false) (hend : s.atEnd = false) {i : Instr} {t : State}
      (hfetch : s.fetch = .ok (i, s.pc + i.length)) (heff : Effect i (s.advance i.length) t) : Transition s t
  /-- A check of the fetched instruction fails (R155). -/
  | dispatchFault (hterm : s.status.isTerminal = false) (hend : s.atEnd = false) {i : Instr} {k : ErrorKind} {info : FaultInfo}
      (hfetch : s.fetch = .ok (i, s.pc + i.length)) (hraise : Raises i (s.advance i.length) k info) :
      Transition s ((s.advance i.length).enterFaulted k info s.pc)
  /-- An IN waits for its answer (R143). -/
  | wait (hwait : s.Waits) : Transition s s

/-- Every step is one of these transitions. -/
theorem transition_of_step {s t : State} (h : step s = .next t) : Transition s t := by
  have next_eq {u : State} (hu : step s = .next u) : u = t := Host.Outcome.next.inj (hu.symm.trans h)
  rcases step_cases s with ⟨hterm, hstep⟩ | ⟨hterm, hend, hstep⟩ | ⟨hterm, hend, e, hfetch, hstep⟩ |
    ⟨hterm, hend, i, n, hfetch, hstep⟩
  · obtain rfl := next_eq hstep
    exact .terminal hterm
  · obtain rfl := next_eq hstep
    exact .endCheck hterm hend
  · obtain rfl := next_eq hstep
    exact .decodeFault hterm hend hfetch
  · obtain ⟨-, rfl, -⟩ := decode_wf hfetch
    rcases exec_cases i s with ⟨u, hexec, heff⟩ | ⟨k, info, hexec, hraise⟩ | ⟨hexec, hans, r, hr, rfl⟩
    · obtain rfl := next_eq (hstep.trans hexec)
      exact .complete hterm hend hfetch heff
    · obtain rfl := next_eq (hstep.trans hexec)
      exact .dispatchFault hterm hend hfetch hraise
    · obtain rfl := next_eq (hstep.trans hexec)
      exact .wait ⟨hterm, hend, hans, r, _, hr, hfetch⟩

/-- A fetched instruction lies inside the program (R67). -/
theorem fetch_le_eof {s : State} {i : Instr} {n : Nat} (h : s.fetch = .ok (i, n)) : n ≤ s.eof := (decode_wf h).2.2

section

variable {i : Instr} {s t : State}

theorem Effect.eof_eq (h : Effect i s t) : t.eof = s.eof := by cases h <;> rfl

theorem Effect.prog_eq (h : Effect i s t) : t.prog = s.prog := by cases h <;> rfl

theorem Effect.dataSize_eq (h : Effect i s t) : t.data.size = s.data.size := by cases h <;> rfl

/-- Once `pc` has advanced, only HALT moves it, to `eof` (R130). -/
theorem Effect.pc_cases (h : Effect i s t) : t.pc = s.pc ∨ i = .halt ∧ t.pc = s.eof := by
  cases h with
  | halt => exact .inr ⟨rfl, rfl⟩
  | _ => exact .inl rfl

theorem eq_of_setReg_changed {r j : Nat} {v : Bits8} (h : (s.setReg r v).regs[j]? ≠ s.regs[j]?) : j = r := by
  by_contra hne
  exact h (setReg_other s v hne)

/-- The register an effect changes is operand 0 of MOVER, ADD, SUB or IN (R23). -/
theorem Effect.reg_changed (h : Effect i s t) {j : Nat} (hj : t.regs[j]? ≠ s.regs[j]?) :
    (∃ a, i = .mover j a) ∨ (∃ r1 a, i = .add j r1 a) ∨ (∃ r1 a, i = .sub j r1 a) ∨ i = .inp j := by
  cases h with
  | mover =>
    obtain rfl := eq_of_setReg_changed hj
    exact .inl ⟨_, rfl⟩
  | add =>
    obtain rfl := eq_of_setReg_changed hj
    exact .inr (.inl ⟨_, _, rfl⟩)
  | sub =>
    obtain rfl := eq_of_setReg_changed hj
    exact .inr (.inr (.inl ⟨_, _, rfl⟩))
  | inpValue =>
    obtain rfl := eq_of_setReg_changed (s := s.dropAnswer) hj
    exact .inr (.inr (.inr rfl))
  | movem | halt | inpRejected | out => exact absurd rfl hj

/-- The data cell an effect changes is the address of MOVEM (R52). -/
theorem Effect.cell_changed (h : Effect i s t) {a : Nat} (ha : t.data.cells.read a ≠ s.data.cells.read a) :
    ∃ r, i = .movem r a := by
  cases h with
  | @movem _ r b =>
    have hab : a = b := by
      by_contra hne
      exact ha (read_write_other _ _ hne)
    exact ⟨r, hab ▸ rfl⟩
  | _ => exact absurd rfl ha

/-- No step writes the end marker (R26). -/
theorem Transition.eof_eq (h : Transition s t) : t.eof = s.eof := by
  cases h with
  | complete _ _ _ heff => exact heff.eof_eq
  | _ => rfl

/-- No step writes program memory (R27, R52). -/
theorem Transition.prog_eq (h : Transition s t) : t.prog = s.prog := by
  cases h with
  | complete _ _ _ heff => exact heff.prog_eq
  | _ => rfl

theorem Transition.dataSize_eq (h : Transition s t) : t.data.size = s.data.size := by
  cases h with
  | complete _ _ _ heff => exact heff.dataSize_eq
  | _ => rfl

/-- A step that changes the registers or the data completes an instruction, whose effect that is. -/
theorem Transition.effect_of_changed (h : Transition s t) (hne : t.regs ≠ s.regs ∨ t.data ≠ s.data) :
    ∃ i, s.fetch = .ok (i, s.pc + i.length) ∧ Effect i (s.advance i.length) t := by
  cases h with
  | complete _ _ hfetch heff => exact ⟨_, hfetch, heff⟩
  | _ => exact absurd hne (by simp)

/-- A step leaves `pc`, moves it to the trailing offset, or to `eof` by HALT (R25). -/
theorem Transition.pc_cases (h : Transition s t) :
    t.pc = s.pc ∨ (∃ i, s.fetch = .ok (i, t.pc) ∧ t.pc = s.pc + i.length) ∨
      ∃ n, s.fetch = .ok (.halt, n) ∧ t.pc = s.eof := by
  cases h with
  | complete _ _ hfetch heff =>
    rcases heff.pc_cases with hpc | ⟨rfl, hpc⟩
    · exact .inr (.inl ⟨_, hpc ▸ hfetch, hpc⟩)
    · exact .inr (.inr ⟨_, hfetch, hpc⟩)
  | dispatchFault _ _ hfetch _ => exact .inr (.inl ⟨_, hfetch, rfl⟩)
  | _ => exact .inl rfl

end

/-- Settles O14: what changed a register or a cell is the effect of the fetched instruction, whose own rules name the operand. -/
theorem onlyHandlersWrite : Obligations.OnlyHandlersWrite := by
  intro s t hstep
  have htrans := transition_of_step hstep
  refine ⟨fun j hj => ?_, fun a ha => ?_, htrans.prog_eq, htrans.dataSize_eq⟩
  · obtain ⟨i, hfetch, heff⟩ := htrans.effect_of_changed (.inl fun h => hj (by rw [h]))
    exact ⟨i, _, hfetch, heff.reg_changed hj⟩
  · obtain ⟨i, hfetch, heff⟩ := htrans.effect_of_changed (.inr fun h => ha (by rw [h]))
    obtain ⟨r, rfl⟩ := heff.cell_changed ha
    exact ⟨r, _, hfetch⟩

/-- Settles O22: the three ways `pc` can go, each ending at or below `eof`. -/
theorem pcChangesTwoWays : Obligations.PcChangesTwoWays := by
  intro s t hstep
  have hcases := (transition_of_step hstep).pc_cases
  refine ⟨hcases, fun hle => ?_⟩
  rcases hcases with hpc | ⟨i, hfetch, -⟩ | ⟨-, -, hpc⟩
  · exact hpc ▸ hle
  · exact fetch_le_eof hfetch
  · exact hpc.le

end Sys2Proof.Machine
end

section
/-!
The state invariant: each operation of a step keeps it, so a step does; a load gives it, so every reachable state meets it.
-/

namespace Sys2Proof.Machine

section

variable {s t : State}

/-- A core that is in no terminal state has no fault record (R32). -/
theorem State.Inv.fault_eq_none (hs : s.Inv) (hterm : s.status.isTerminal = false) : s.fault = none := by
  have hnot : s.status ≠ .faulted := fun h => by simp [h, Status.isTerminal] at hterm
  simpa using mt hs.faulted.mp hnot

theorem State.Inv.endCheck (hs : s.Inv) (hterm : s.status.isTerminal = false) (hend : s.atEnd = true) :
    State.Inv { s with status := .halted } := by
  have hpc : s.pc = s.eof := by
    have := hs.pc_le
    have := hs.eof_le
    rcases atEnd_eq_true.mp hend with h | h <;> omega
  exact { hs with
    ready := nofun
    halted := fun _ => hpc
    faulted := by simp [hs.fault_eq_none hterm] }

/-- The advance keeps the invariant where the instruction lies inside the program. -/
theorem State.Inv.advance (hs : s.Inv) (hterm : s.status.isTerminal = false) {len : Nat} (hlen : s.pc + len ≤ s.eof) :
    (s.advance len).Inv :=
  { hs with
    pc_le := hlen
    ready := nofun
    halted := nofun
    faulted := by simp [hs.fault_eq_none hterm] }

/-- Entering `Faulted` with a record R154 allows keeps the invariant. -/
theorem State.Inv.enterFaulted (hs : s.Inv) {k : ErrorKind} {info : FaultInfo} {pc0 : Nat}
    (hk : k.isEngine = true ∧ k.infoFits info = true) (hpc0 : pc0 < s.eof) : (s.enterFaulted k info pc0).Inv :=
  { hs with
    ready := nofun
    halted := nofun
    faulted := by simp
    fault_good := by
      rintro f ⟨⟩
      exact ⟨hk.1, rfl, hk.2, hpc0⟩ }

theorem State.Inv.setReg (hs : s.Inv) (hrun : s.status = .running) (i : Nat) (v : Bits8) : (s.setReg i v).Inv :=
  { hs with ready := fun h => by simp [hrun] at h }

theorem State.Inv.setData (hs : s.Inv) {a : Nat} (ha : a < s.data.size) (v : Bits8) : (s.setData a v).Inv :=
  { hs with data_wf := set_wf hs.data_wf ha }

theorem State.Inv.dropAnswer (hs : s.Inv) : s.dropAnswer.Inv := { hs with }

theorem State.Inv.deliver (hs : s.Inv) (ans : HostAnswer) : (s.deliver ans).Inv := { hs with }

theorem State.Inv.log (hs : s.Inv) (hrun : s.status = .running) {e : Event} (he : e.Good) : (s.log e).Inv :=
  { hs with
    ready := fun h => by simp [hrun] at h
    trace_good := by simpa [or_imp, forall_and] using ⟨hs.trace_good, he⟩ }

theorem State.Inv.haltAtEof (hs : s.Inv) (hrun : s.status = .running) :
    State.Inv { s with pc := s.eof, status := .halted } :=
  { hs with
    pc_le := le_rfl
    ready := nofun
    halted := fun _ => rfl
    faulted := by simp [hs.fault_eq_none (by rw [hrun]; rfl)] }

/-- The effect of every instruction, in the running core its dispatch gives, keeps the invariant. -/
theorem State.Inv.effect (hs : s.Inv) (hrun : s.status = .running) {i : Instr} (h : Effect i s t) : t.Inv := by
  cases h with
  | mover | add | sub => exact hs.setReg hrun _ _
  | movem _ ha => exact hs.setData ha _
  | halt => exact hs.haltAtEof hrun
  | inpValue => exact (hs.dropAnswer.setReg hrun _ _).log hrun trivial
  | inpRejected => exact hs.dropAnswer.log hrun trivial
  | out => exact hs.log hrun (int8_range _)

/-- The kinds and info fields of decode errors are the engine's (R151). -/
theorem decodeError_engine (e : DecodeError) :
    (DecodeError.kind e).isEngine = true ∧ (DecodeError.kind e).infoFits (DecodeError.info e) = true := by
  cases e <;> exact ⟨rfl, rfl⟩

theorem Transition.inv (h : Transition s t) (hs : s.Inv) : t.Inv := by
  cases h with
  | terminal | wait => exact hs
  | endCheck hterm hend => exact hs.endCheck hterm hend
  | decodeFault _ hend => exact hs.enterFaulted (decodeError_engine _) (atEnd_eq_false.mp hend).1
  | complete hterm _ hfetch heff => exact (hs.advance hterm (fetch_le_eof hfetch)).effect rfl heff
  | dispatchFault hterm hend hfetch hraise =>
    exact (hs.advance hterm (fetch_le_eof hfetch)).enterFaulted (raises_engine hraise) (atEnd_eq_false.mp hend).1

end

/-- Settles O45: every transition of a step is made of operations that keep the invariant. -/
theorem stepKeepsInvariant : Obligations.StepKeepsInvariant :=
  ⟨fun _ _ hs hstep => (transition_of_step hstep).inv hs, fun _ ans hs => hs.deliver ans⟩

theorem unwritten_regs : ∀ i : Nat, i < 4 → (#v[Slot.unwritten, .unwritten, .unwritten, .unwritten])[i]? = some .unwritten := by
  decide

/-- A list of values no longer than the memory fills it in canonical form. -/
theorem ofList_space_wf {w : Nat} {vs : List (BitVec w)} {size : Nat} (h : vs.length ≤ size) :
    AddressSpace.wf { size := size, cells := Memory.ofList 0 vs } :=
  ⟨ofList_wf vs 0, fun c hc => by
    have := (ofList_mem hc).2
    show c.1 < size
    omega⟩

section

variable {p : Config.Params} {image : List Bits8} {eofBits : Nat} {dataImage : List Bits8} {s : State}

/-- A load is accepted exactly where the checks of R182 pass, and then gives the state of R184. -/
theorem instantiate_ok :
    instantiate p image eofBits dataImage = .ok s ↔
      eofBits ≤ 8 * image.length ∧ 8 * image.length ≤ p.progSize ∧ dataImage.length = p.dataSize ∧
        s = State.loaded p image eofBits dataImage := by
  unfold instantiate loadCheck
  split_ifs with hshort hlarge hdata
  · exact ⟨nofun, fun ⟨h, _⟩ => absurd hshort h.not_gt⟩
  · exact ⟨nofun, fun ⟨_, h, _⟩ => absurd hlarge h.not_gt⟩
  · exact ⟨nofun, fun ⟨_, _, h, _⟩ => absurd h hdata⟩
  · exact ⟨fun h => ⟨not_lt.mp hshort, not_lt.mp hlarge, not_not.mp hdata, (Except.ok.inj h).symm⟩,
      fun ⟨_, _, _, h⟩ => h ▸ rfl⟩

theorem loaded_inv (heof : eofBits ≤ 8 * image.length) (himage : 8 * image.length ≤ p.progSize)
    (hdata : dataImage.length = p.dataSize) : (State.loaded p image eofBits dataImage).Inv where
  pc_le := Nat.zero_le _
  eof_le := heof.trans himage
  prog_wf := ofList_space_wf (by rwa [imageBits_length])
  data_wf := ofList_space_wf hdata.le
  ready _ := ⟨rfl, rfl, unwritten_regs⟩
  halted := nofun
  faulted := by simp
  fault_good := nofun
  trace_good := nofun

theorem Reachable.inv (h : Reachable p image eofBits dataImage s) : s.Inv := by
  induction h with
  | load _ hload =>
    obtain ⟨heof, himage, hdata, rfl⟩ := instantiate_ok.mp hload
    exact loaded_inv heof himage hdata
  | step _ hstep ih => exact (transition_of_step hstep).inv ih
  | deliver _ ans ih => exact ih.deliver ans

theorem Reachable.eof_eq (h : Reachable p image eofBits dataImage s) : s.eof = eofBits := by
  induction h with
  | load _ hload =>
    obtain ⟨-, -, -, rfl⟩ := instantiate_ok.mp hload
    rfl
  | step _ hstep ih => exact (transition_of_step hstep).eof_eq.trans ih
  | deliver _ _ ih => exact ih

theorem Reachable.prog_eq (h : Reachable p image eofBits dataImage s) :
    s.prog = { size := p.progSize, cells := Memory.ofList 0 (imageBits image) } := by
  induction h with
  | load _ hload =>
    obtain ⟨-, -, -, rfl⟩ := instantiate_ok.mp hload
    rfl
  | step _ hstep ih => exact (transition_of_step hstep).prog_eq.trans ih
  | deliver _ _ ih => exact ih

end

/-- Settles O46, by induction on how the state was reached: a load meets the invariant, and steps and answers keep it. -/
theorem reachableStatesMeetInvariant : Obligations.ReachableStatesMeetInvariant :=
  fun _ _ _ _ _ h => h.inv

/-- Settles O47: the end marker and program memory are those of the load, by induction; the bound is the invariant's. -/
theorem programIsConstant : Obligations.ProgramIsConstant := by
  intro p image eofBits dataImage s h
  have hsize : s.prog.size = p.progSize := by rw [h.prog_eq]
  refine ⟨h.eof_eq, Nat.zero_le _, hsize ▸ h.inv.eof_le, hsize, fun b => ?_⟩
  rw [h.prog_eq, read_ofList, if_neg (Nat.not_lt_zero b), Nat.sub_zero]

/-- Settles O37: the invariant puts a core with a record in `Faulted`, which no step leaves. -/
theorem faultRecordWrittenOnce : Obligations.FaultRecordWrittenOnce := by
  intro p image eofBits dataImage
  refine ⟨fun s hload => ?_, fun s hreach => ⟨hreach.inv.faulted, fun t f hstep hf => ?_⟩⟩
  · obtain ⟨-, -, -, rfl⟩ := instantiate_ok.mp hload
    rfl
  · have hfaulted : s.status = .faulted := hreach.inv.faulted.mp (by simp [hf])
    have hstay : step s = .next s := step_of_terminal (by rw [hfaulted]; rfl)
    simpa [hstay] using hstep.symm

/-- Settles O44: nothing has run, and the memories of the reset state are empty. -/
theorem resetMeetsInvariant : Obligations.ResetMeetsInvariant where
  pc_le := le_rfl
  eof_le := Nat.zero_le _
  prog_wf := reset_memory_wf.1
  data_wf := reset_memory_wf.2
  ready _ := ⟨rfl, rfl, unwritten_regs⟩
  halted := nofun
  faulted := by decide
  fault_good := nofun
  trace_good := nofun

end Sys2Proof.Machine
end

section
/-!
How an image fills program memory (20_memory.md R41): the bit of a field, of a byte and of a whole image at a given place.
-/

namespace Sys2Proof

/-- Bit `k` of a field is bit `w - 1 - k` of its value: most significant first (00_scope.md R12). -/
theorem fieldBits_getD (v : Nat) {w k : Nat} (hk : k < w) :
    (fieldBits v w).getD k 0 = BitVec.ofNat 1 (v / 2 ^ (w - 1 - k) % 2) := by
  induction w generalizing k with
  | zero => omega
  | succ w ih =>
    cases k with
    | zero =>
      apply BitVec.eq_of_toNat_eq
      simp [fieldBits]
    | succ k =>
      rw [fieldBits, List.getD_cons_succ, ih (by omega), show w + 1 - 1 - (k + 1) = w - 1 - k by omega]

/-- Bit `8 * i + j` of an image is bit `j` of its byte `i`. -/
theorem imageBits_getD {image : List Bits8} {i j : Nat} (hi : i < image.length) (hj : j < 8) :
    (imageBits image).getD (8 * i + j) 0 = (byteBits image[i]).getD j 0 := by
  induction image generalizing i with
  | nil => simp at hi
  | cons b bs ih =>
    rw [imageBits_cons]
    cases i with
    | zero =>
      rw [Nat.mul_zero, Nat.zero_add, List.getD_append _ _ _ _ (by simpa using hj), List.getElem_cons_zero]
    | succ i =>
      rw [List.getD_append_right _ _ _ _ (by rw [byteBits_length]; omega), byteBits_length,
        show 8 * (i + 1) + j - 8 = 8 * i + j by omega, ih (by simpa using hi), List.getElem_cons_succ]

end Sys2Proof

namespace Sys2Proof.Machine

/-- Program memory of an accepted load holds the bits of the image from 0 on, and 0 beyond them (R41, D15). -/
theorem instantiate_prog_read {p : Config.Params} {image : List Bits8} {eofBits : Nat} {dataImage : List Bits8} {s : State}
    (h : instantiate p image eofBits dataImage = .ok s) (b : Nat) : s.prog.cells.read b = (imageBits image).getD b 0 := by
  obtain ⟨-, -, -, rfl⟩ := instantiate_ok.mp h
  rw [loaded_prog, read_ofList, if_neg (Nat.not_lt_zero b), Nat.sub_zero]

/-- Settles O41: an accepted load has passed the size check, and its program memory reads as the bits of the image, byte by byte. -/
theorem imageMapsMsbFirst : Obligations.ImageMapsMsbFirst := by
  intro p image eofBits dataImage
  refine ⟨fun hlarge => ?_, fun s hload => ⟨fun i j hi hj => ?_, fun b hb => ?_⟩⟩
  · cases hload : instantiate p image eofBits dataImage with
    | error reason => exact ⟨reason, rfl⟩
    | ok s =>
      obtain ⟨-, himage, -⟩ := instantiate_ok.mp hload
      exact absurd hlarge himage.not_gt
  · rw [instantiate_prog_read hload, imageBits_getD hi hj, byteBits, fieldBits_getD _ hj]
  · rw [instantiate_prog_read hload, List.getD_eq_default _ _ (by rwa [imageBits_length])]

end Sys2Proof.Machine
end

section
/-!
Data cells 16 and up are inert (20_memory.md R48): no operand field names one, so no step writes one, and a step of a core whose
high cells are changed is the same step with those cells changed.
-/

namespace Sys2Proof.Machine

/-- An operand field has at most 4 bits, so no operand of a well-formed instruction reaches 16 (30_encoding.md R63). -/
theorem operand_lt_of_wf {i : Instr} (h : i.wf = true) {v : Nat} (hv : v ∈ i.operands) : v < 16 := by
  cases i <;> simp [Instr.wf, Instr.operands] at h hv <;> omega

/-- The same write keeps two memories alike wherever they were. -/
theorem read_write_congr {w : Nat} {m n : Memory w} (hm : m.wf) (hn : n.wf) (a : Nat) (v : BitVec w) {b : Nat}
    (h : m.read b = n.read b) : (m.write a v).read b = (n.write a v).read b := by
  by_cases hb : b = a
  · subst hb
    rw [read_write_same hm, read_write_same hn]
  · rw [read_write_other m v hb, read_write_other n v hb, h]

/-- No step writes a data cell from 16 on (R48). -/
theorem step_read_of_high {s t : State} (hstep : step s = .next t) {a : Nat} (ha : 16 ≤ a) :
    t.data.cells.read a = s.data.cells.read a := by
  by_contra hne
  obtain ⟨-, hcells, -⟩ := onlyHandlersWrite s t hstep
  obtain ⟨r, n, hfetch⟩ := hcells a hne
  obtain ⟨hwf, -⟩ := decode_wf hfetch
  exact absurd (operand_lt_of_wf hwf (v := a) (by simp [Instr.operands])) ha.not_gt

theorem Reachable.read_of_high {p : Config.Params} {image : List Bits8} {eofBits : Nat} {dataImage : List Bits8} {s : State}
    (h : Reachable p image eofBits dataImage s) {a : Nat} (ha : 16 ≤ a) : s.data.cells.read a = dataImage.getD a 0 := by
  induction h with
  | load _ hload =>
    obtain ⟨-, -, -, rfl⟩ := instantiate_ok.mp hload
    rw [loaded_data, read_ofList, if_neg (Nat.not_lt_zero a), Nat.sub_zero]
  | step _ hstep ih => exact (step_read_of_high hstep ha).trans ih
  | deliver _ _ ih => exact ih

/-- A waiting core stays as it is (R143). -/
theorem step_of_waits {s : State} (h : s.Waits) : step s = .next s := by
  obtain ⟨hterm, hend, hans, r, n, hr, hfetch⟩ := h
  have hreg : r < 4 := hr
  rw [step_exec hterm hend hfetch]
  rcases exec_cases (.inp r) s with ⟨t, -, heff⟩ | ⟨k, info, -, hraise⟩ | ⟨hexec, -⟩
  · cases heff <;> simp_all
  · cases hraise
    omega
  · exact hexec

/-- Every transition is the step of its state: `Transition` says no more than `step`. -/
theorem Transition.step_eq {s t : State} (h : Transition s t) : step s = .next t := by
  cases h with
  | terminal hterm => exact step_of_terminal hterm
  | endCheck hterm hend => simp [step, State.stepWith, hterm, hend]
  | decodeFault hterm hend hfetch => exact step_decodeFault hterm hend hfetch
  | complete hterm hend hfetch heff => rw [step_exec hterm hend hfetch, exec_of_effect heff]
  | dispatchFault hterm hend hfetch hraise => rw [step_exec hterm hend hfetch, exec_of_raises hraise]
  | wait hwait => exact step_of_waits hwait

/-- The same core with other contents of its data cells. -/
def State.withCells (s : State) (c : Memory 8) : State := { s with data := { s.data with cells := c } }

/-- Memories that read alike at every address an instruction can name. -/
def LowAlike (c d : Memory 8) : Prop := ∀ a < 16, c.read a = d.read a

theorem alikeBelow16_iff {s s' : State} :
    AlikeBelow16 s s' ↔ ∃ c, s' = s.withCells c ∧ LowAlike c s.data.cells := by
  constructor
  · rintro ⟨hrest, hsize, hlow⟩
    refine ⟨s'.data.cells, ?_, hlow⟩
    show s' = { s with data := { size := s.data.size, cells := s'.data.cells } }
    rw [← hsize]
    exact hrest
  · rintro ⟨c, rfl, hlow⟩
    exact ⟨rfl, rfl, hlow⟩

section

variable {i : Instr} {s t : State} {c : Memory 8}

/-- Which check fails first does not depend on what the data cells hold. -/
theorem Raises.withCells {k : ErrorKind} {info : FaultInfo} (h : Raises i s k info) (c : Memory 8) :
    Raises i (s.withCells c) k info := by
  cases h <;> constructor <;> assumption

/-- The effect of a well-formed instruction sees and writes the low cells only. -/
theorem Effect.withCells (h : Effect i s t) (hi : i.wf = true) (hs : s.data.cells.wf) (hc : c.wf)
    (hlow : LowAlike c s.data.cells) :
    ∃ c', Effect i (s.withCells c) (t.withCells c') ∧ LowAlike c' t.data.cells := by
  have read_eq {a : Nat} (ha : a ∈ i.operands) : s.data.cells.read a = (s.withCells c).data.cells.read a :=
    (hlow a (operand_lt_of_wf hi ha)).symm
  cases h with
  | mover hr ha =>
    rw [read_eq (by simp [Instr.operands])]
    exact ⟨c, .mover hr ha, hlow⟩
  | movem hr ha => exact ⟨_, .movem (s := s.withCells c) hr ha, fun k hk => read_write_congr hc hs _ _ (hlow k hk)⟩
  | add h0 h1 ha =>
    rw [read_eq (by simp [Instr.operands])]
    exact ⟨c, .add h0 h1 ha, hlow⟩
  | sub h0 h1 ha =>
    rw [read_eq (by simp [Instr.operands])]
    exact ⟨c, .sub h0 h1 ha, hlow⟩
  | halt => exact ⟨c, .halt (s := s.withCells c), hlow⟩
  | inpValue hr ha => exact ⟨c, .inpValue (s := s.withCells c) hr ha, hlow⟩
  | inpRejected hr ha => exact ⟨c, .inpRejected (s := s.withCells c) hr ha, hlow⟩
  | out hr => exact ⟨c, .out (s := s.withCells c) hr, hlow⟩

/-- A transition goes the same way in a core whose cells are alike where instructions can name them. -/
theorem Transition.withCells (h : Transition s t) (hs : s.data.cells.wf) (hc : c.wf) (hlow : LowAlike c s.data.cells) :
    ∃ c', Transition (s.withCells c) (t.withCells c') ∧ LowAlike c' t.data.cells := by
  cases h with
  | terminal hterm => exact ⟨c, .terminal hterm, hlow⟩
  | endCheck hterm hend => exact ⟨c, .endCheck (s := s.withCells c) hterm hend, hlow⟩
  | decodeFault hterm hend hfetch => exact ⟨c, .decodeFault (s := s.withCells c) hterm hend hfetch, hlow⟩
  | complete hterm hend hfetch heff =>
    obtain ⟨hwf, -⟩ := decode_wf hfetch
    obtain ⟨c', heff', hlow'⟩ := heff.withCells hwf hs hc hlow
    exact ⟨c', .complete (s := s.withCells c) hterm hend hfetch heff', hlow'⟩
  | dispatchFault hterm hend hfetch hraise =>
    exact ⟨c, .dispatchFault (s := s.withCells c) hterm hend hfetch (hraise.withCells c), hlow⟩
  | wait hwait => exact ⟨c, .wait hwait, hlow⟩

end

/-- Settles O48: reachable states by induction over steps that write no high cell; alike cores because each transition of the one
is a transition of the other, whose cells stay alike. -/
theorem highDataCellsAreInert : Obligations.HighDataCellsAreInert := by
  refine ⟨fun p image eofBits dataImage s hreach a ha _ => hreach.read_of_high ha, fun s s' t hs hs' halike hstep => ?_⟩
  obtain ⟨c, rfl, hlow⟩ := alikeBelow16_iff.mp halike
  obtain ⟨c', htrans, hlow'⟩ := (transition_of_step hstep).withCells hs.1 hs'.1 hlow
  exact ⟨t.withCells c', htrans.step_eq, alikeBelow16_iff.mpr ⟨c', rfl, hlow'⟩⟩

end Sys2Proof.Machine
end

section
/-!
Decode and encode are inverse (30_encoding.md R74): the decoder reads the fields of the opcode's row one after another, and fields
read and fields packed are the same bits.
-/

namespace Sys2Proof

/-- The fields of the given widths lying one after another in the program from bit offset `p` on (R66). -/
def fieldValues (P : Nat → Bit) (p : Nat) : List Nat → List Nat
  | [] => []
  | w :: ws => field P p w :: fieldValues P (p + w) ws

@[simp] theorem fieldValues_nil (P : Nat → Bit) (p : Nat) : fieldValues P p [] = [] := rfl

@[simp] theorem fieldValues_cons (P : Nat → Bit) (p w : Nat) (ws : List Nat) :
    fieldValues P p (w :: ws) = field P p w :: fieldValues P (p + w) ws := rfl

/-- Fields packed in program memory are read back. -/
theorem LiesAt.fieldValues {P : Nat → Bit} {p : Nat} {fs : List (Nat × Nat)} (h : LiesAt P p (fieldsBits fs))
    (hfit : ∀ f ∈ fs, f.1 < 2 ^ f.2) : Sys2Proof.fieldValues P p (fs.map Prod.snd) = fs.map Prod.fst := by
  induction fs generalizing p with
  | nil => rfl
  | cons f fs ih =>
    rw [fieldsBits_cons] at h
    have hrest : LiesAt P (p + f.2) (fieldsBits fs) := by simpa using h.right
    simp [h.left.fieldBits (hfit f (by simp)), ih hrest (fun g hg => hfit g (by simp [hg]))]

/-- A field that was read, packed again, is the bits it was read from. -/
theorem fieldBits_field (P : Nat → Bit) (p w : Nat) : fieldBits (field P p w) w = (List.range w).map (fun k => P (p + k)) := by
  have h := fieldBits_bitsValue ((List.range w).map (fun k => P (p + k)))
  rwa [← field_eq_bitsValue, List.length_map, List.length_range] at h

/-- Fields that were read, packed again, are the bits they were read from. -/
theorem fieldsBits_fieldValues (P : Nat → Bit) (p : Nat) (ws : List Nat) :
    fieldsBits ((fieldValues P p ws).zip ws) = (List.range ws.sum).map (fun k => P (p + k)) := by
  induction ws generalizing p with
  | nil => rfl
  | cons w ws ih => simp [ih, fieldBits_field, List.range_add, Nat.add_assoc]

/-- An opcode and operand values make up one instruction at most. -/
theorem ofOperands_eq_some {op : Nat} {vs : List Nat} {i : Instr} :
    Instr.ofOperands op vs = some i ↔ i.opcode = op ∧ i.operands = vs := by
  constructor
  · intro h
    unfold Instr.ofOperands at h
    split at h <;> cases h <;> exact ⟨rfl, rfl⟩
  · rintro ⟨rfl, rfl⟩
    cases i <;> rfl

/-- The decoder reads the fields of the opcode's row in table order (R67). -/
theorem decodeFields_eq (P : Nat → Bit) (pc : Nat) : ∀ op,
    decodeFields P pc op = Instr.ofOperands op (fieldValues P (pc + 4) (operandWidths op))
  | 0 | 1 | 2 | 3 | 4 | 5 | 6 | _ + 7 => rfl

theorem operandFields_fst (i : Instr) : i.operandFields.map Prod.fst = i.operands := by cases i <;> rfl

theorem operandFields_snd (i : Instr) : i.operandFields.map Prod.snd = operandWidths i.opcode := by cases i <;> rfl

/-- `Len(op)` is the width of the opcode field and of the operand fields together (R64). -/
theorem length_eq_sum (i : Instr) : i.length = 4 + (operandWidths i.opcode).sum := by cases i <;> rfl

/-- The operands the decoder gives are those that lie after the opcode field. -/
theorem decodeFields_eq_some {P : Nat → Bit} {pc op : Nat} {i : Instr} :
    decodeFields P pc op = some i ↔ i.opcode = op ∧ i.operands = fieldValues P (pc + 4) (operandWidths op) := by
  rw [decodeFields_eq, ofOperands_eq_some]

/-- Where the encoding of a well-formed instruction lies, the decoder reads that instruction (R74). -/
theorem LiesAt.decode {P : Nat → Bit} {eof pc : Nat} {i : Instr} (h : LiesAt P pc (fieldsBits i.fields)) (hwf : i.wf = true)
    (hfit : pc + i.length ≤ eof) : Sys2Proof.decode P eof pc = .ok (i, pc + i.length) := by
  have hvalues := h.fieldValues fun f hf => (fields_fit hwf f hf).2
  simp only [Instr.fields, List.map_cons, Sys2Proof.fieldValues_cons, List.cons.injEq, operandFields_fst, operandFields_snd,
    Config.opcodeWidth] at hvalues
  obtain ⟨hop, hoperands⟩ := hvalues
  exact decode_ok.mpr ⟨decodeFields_eq_some.mpr ⟨hop.symm, hop.symm ▸ hoperands.symm⟩, rfl, by omega⟩

/-- Settles O31: the encoding is the packed fields, and fields packed in the program are read back. -/
theorem decodeOfEncodeIsIdentity : Obligations.DecodeOfEncodeIsIdentity := by
  intro i hwf
  refine ⟨_, encode_of_wf hwf, encodedBits_length i, fun P eof pc hlies hfit => ?_⟩
  exact LiesAt.decode hlies hwf (by rwa [encodedBits_length] at hfit)

/-- Settles O32: a decoded instruction's fields are those read from the program, and packing them again gives the bits read. -/
theorem encodeOfDecodeIsTheProgram : Obligations.EncodeOfDecodeIsTheProgram := by
  intro P eof pc n i h
  obtain ⟨hwf, rfl, -⟩ := decode_wf h
  obtain ⟨hfields, -, -⟩ := decode_ok.mp h
  obtain ⟨hop, hoperands⟩ := decodeFields_eq_some.mp hfields
  have fields_eq : i.fields = (fieldValues P pc (4 :: operandWidths i.opcode)).zip (4 :: operandWidths i.opcode) := by
    rw [Instr.fields, Instr.operandFields, hoperands, fieldValues_cons, ← hop]
    rfl
  rw [encode_of_wf hwf, fields_eq, fieldsBits_fieldValues, Nat.add_sub_cancel_left, length_eq_sum]
  rfl

end Sys2Proof
end

section
/-!
The bit packer and unpacker (30_encoding.md R60 to R62): what a write, a flush and a read do to the stream of bits, and that reading
undoes writing.
-/

namespace Sys2Proof

theorem widthOk_iff {w : Nat} : widthOk w = true ↔ 1 ≤ w ∧ w ≤ 32 := by
  rw [widthOk, Bool.and_eq_true, decide_eq_true_iff, decide_eq_true_iff, Config.bitIoMaxWidth]

/-- The bits of a field one by one, most significant first (R60). -/
theorem fieldBits_eq_map (v w : Nat) :
    fieldBits v w = (List.range w).map (fun k => BitVec.ofNat 1 (v / 2 ^ (w - 1 - k) % 2)) := by
  refine List.ext_getElem (by simp) fun k hk _ => ?_
  have := fieldBits_getD v (w := w) (k := k) (by simpa using hk)
  rw [List.getD_eq_getElem _ _ hk] at this
  simpa using this

theorem pushBit_emitted_prefix (wr : BitWriter) (b : Bit) : wr.emitted <+: (wr.pushBit b).emitted := by
  unfold BitWriter.pushBit
  split
  · exact List.prefix_append _ _
  · exact List.prefix_rfl

/-- What has been emitted stays. -/
theorem pushBits_emitted_prefix (wr : BitWriter) (bs : List Bit) : wr.emitted <+: (wr.pushBits bs).emitted := by
  induction bs generalizing wr with
  | nil => exact List.prefix_rfl
  | cons b bs ih => exact (pushBit_emitted_prefix wr b).trans (ih _)

/-- A value too large for its width is refused (R60). -/
theorem write_of_le (wr : BitWriter) {v w : Nat} (hw : widthOk w = true) (hv : 2 ^ w ≤ v) :
    wr.write v w = .error (.encoding v w) := by
  simp [BitWriter.write, hw, hv]

/-- Settles O51: a write that fits pushes the field's bits, which the packer's laws append to the stream. -/
theorem writerAppendsMsbFirst : Obligations.WriterAppendsMsbFirst := by
  intro wr v w hgood
  refine ⟨fun h1 h32 hv => ?_, fun h1 h32 hv => write_of_le wr (widthOk_iff.mpr ⟨h1, h32⟩) hv⟩
  refine ⟨_, write_of_lt wr (widthOk_iff.mpr ⟨h1, h32⟩) hv, pushBits_good hgood _, ?_, pushBits_emitted_prefix wr _⟩
  rw [pushBits_bits, fieldBits_eq_map]

theorem flush_of_empty {wr : BitWriter} (h : wr.acc = []) : wr.flush = wr := by
  simp [BitWriter.flush, h]

/-- The bytes of a flushed stream: the bits written, then zeros to the byte boundary (R61). -/
theorem flush_imageBits {wr : BitWriter} (h : wr.Good) :
    imageBits wr.flush.emitted = wr.bits ++ List.replicate ((8 - wr.acc.length) % 8) 0 := by
  obtain ⟨hbits, hacc⟩ := flush_bits h
  simpa [BitWriter.bits, hacc] using hbits

/-- Settles O52: a flush empties the accumulator, so a second finds nothing; a partial byte is emitted as one padded byte. -/
theorem flushPadsOnce : Obligations.FlushPadsOnce := by
  intro wr hgood
  have hacc : wr.flush.acc = [] := (flush_bits hgood).2
  refine ⟨hacc, flush_of_empty hacc, flush_of_empty, fun hne => ⟨?_, ?_⟩⟩
  · simp [BitWriter.flush, hne]
  · have hpos : 0 < wr.acc.length := List.length_pos_iff.mpr hne
    rw [flush_imageBits hgood, Nat.mod_eq_of_lt (by omega)]

theorem read_of_short {rd : BitReader} {w : Nat} (hw : widthOk w = true) (h : rd.bits.length < w) :
    rd.read w = .error (.truncated w rd.bits.length) := by
  rw [reader_bits_length] at h
  simp [BitReader.read, hw, h]

/-- A read with enough bits left takes the first of them (R62). -/
theorem read_of_le {rd : BitReader} {w : Nat} (hw : widthOk w = true) (h : w ≤ rd.bits.length) :
    ∃ rd', rd.read w = .ok (bitsValue (rd.bits.take w), rd') ∧ rd'.bits = rd.bits.drop w := by
  have hlen : (rd.bits.take w).length = w := List.length_take_of_le h
  have := read_of_bits (xs := rd.bits.take w) (ys := rd.bits.drop w) (by rwa [hlen]) (List.take_append_drop _ _).symm
  rwa [hlen] at this

/-- A read that succeeds had an accepted width and enough bits left. -/
theorem width_of_read {rd rd' : BitReader} {v w : Nat} (h : rd.read w = .ok (v, rd')) :
    widthOk w = true ∧ w ≤ rd.bits.length := by
  unfold BitReader.read at h
  split_ifs at h with hw hshort
  rw [reader_bits_length]
  exact ⟨by simpa using hw, not_lt.mp hshort⟩

/-- Settles O53: a read takes the first `w` bits, whose number has just those bits as its field. -/
theorem readerTakesMsbFirst : Obligations.ReaderTakesMsbFirst := by
  intro rd w h1 h32
  have hw : widthOk w = true := widthOk_iff.mpr ⟨h1, h32⟩
  refine ⟨read_of_short hw, fun hle => ?_⟩
  obtain ⟨rd', hread, hrest⟩ := read_of_le hw hle
  have hlen : (rd.bits.take w).length = w := List.length_take_of_le hle
  refine ⟨_, rd', hread, ?_, ?_, hrest⟩
  · simpa only [hlen] using bitsValue_lt (rd.bits.take w)
  · simpa only [hlen] using fieldBits_bitsValue (rd.bits.take w)

/-- Fields at the head of the stream are read back in order, and the rest of the stream is left. -/
theorem readFields_of_bits {fs : List (Nat × Nat)} {rd : BitReader} {rest : List Bit}
    (hfit : ∀ f ∈ fs, widthOk f.2 = true ∧ f.1 < 2 ^ f.2) (h : rd.bits = fieldsBits fs ++ rest) :
    ∃ rd', rd.readFields (fs.map Prod.snd) = .ok (fs.map Prod.fst, rd') ∧ rd'.bits = rest := by
  induction fs generalizing rd with
  | nil => exact ⟨rd, rfl, h⟩
  | cons f fs ih =>
    obtain ⟨hw, hv⟩ := hfit f (by simp)
    rw [fieldsBits_cons, List.append_assoc] at h
    obtain ⟨rd1, hread, hbits⟩ := read_of_bits (by rwa [fieldBits_length]) h
    rw [fieldBits_length, bitsValue_fieldBits, Nat.mod_eq_of_lt hv] at hread
    obtain ⟨rd2, hreads, hrest⟩ := ih (fun g hg => hfit g (by simp [hg])) hbits
    exact ⟨rd2, by simp [BitReader.readFields, hread, hreads], hrest⟩

theorem empty_good : BitWriter.empty.Good := by decide

/-- Settles O54: the flushed bytes are the fields' bits and some padding, and fields at the head of a stream are read back. -/
theorem readerUndoesWriter : Obligations.ReaderUndoesWriter := by
  intro fs hfs
  have hfit : ∀ f ∈ fs, widthOk f.2 = true ∧ f.1 < 2 ^ f.2 := fun f hf =>
    have ⟨h1, h32, hv⟩ := hfs f hf
    ⟨widthOk_iff.mpr ⟨h1, h32⟩, hv⟩
  refine ⟨_, writeFields_ok fs _ hfit, ?_⟩
  have hgood : (BitWriter.empty.pushBits (fieldsBits fs)).Good := pushBits_good empty_good _
  have hbytes := flush_imageBits hgood
  rw [pushBits_bits] at hbytes
  obtain ⟨rd, hread, -⟩ := readFields_of_bits (rd := BitReader.ofBytes _) hfit hbytes
  exact ⟨rd, hread⟩

/-- Settles O28: by induction on the width; a successful read is the number of the first bits left, which are those at `p`. -/
theorem fieldIsMsbFirstSum : Obligations.FieldIsMsbFirstSum := by
  intro P p w
  refine ⟨?_, fun rd rd' v hlies hread => ?_⟩
  · induction w with
    | zero => rfl
    | succ w ih =>
      have doubled : ((List.range w).map (fun k => (P (p + k)).toNat * 2 ^ (w + 1 - 1 - k))).sum = 2 * field P p w := by
        rw [ih, ← List.sum_map_mul_left]
        refine congrArg List.sum (List.map_congr_left fun k hk => ?_)
        have hk : k < w := List.mem_range.mp hk
        rw [show w + 1 - 1 - k = (w - 1 - k) + 1 by omega, pow_succ]
        ring
      rw [List.range_succ, List.map_append, List.sum_append, doubled]
      simp [field]
  · obtain ⟨hw, hle⟩ := width_of_read hread
    obtain ⟨rd1, hread1, -⟩ := read_of_le hw hle
    have hlies : LiesAt P p (rd.bits.take w ++ rd.bits.drop w) := by rwa [List.take_append_drop]
    have hfield := hlies.left.field
    rw [List.length_take_of_le hle] at hfield
    rw [hread1] at hread
    cases hread
    exact hfield

end Sys2Proof
end

section
/-!
What the encoder answers over any integers (30_encoding.md R65), and the word an encoding is (R64).
-/

namespace Sys2Proof

/-- The word of packed fields: each above the fields after it (R64). -/
def fieldsWord : List (Nat × Nat) → Nat
  | [] => 0
  | (v, _) :: fs => v * 2 ^ (fs.map Prod.snd).sum + fieldsWord fs

/-- Fields that fit, packed, spell their word. -/
theorem bitsValue_fieldsBits {fs : List (Nat × Nat)} (hfit : ∀ f ∈ fs, f.1 < 2 ^ f.2) :
    bitsValue (fieldsBits fs) = fieldsWord fs := by
  induction fs with
  | nil => rfl
  | cons f fs ih =>
    rw [fieldsBits_cons, bitsValue_append, bitsValue_fieldBits, Nat.mod_eq_of_lt (hfit f List.mem_cons_self), fieldsBits_length,
      ih fun g hg => hfit g (List.mem_cons_of_mem f hg), fieldsWord]

/-- The four formats of a well-formed instruction: none, R, RA and RRA (R64). -/
theorem format_cases {i : Instr} (hwf : i.wf = true) :
    (i.length = 4 ∧ i.operandFields = []) ∨
    (∃ r < 4, i.length = 6 ∧ i.operandFields = [(r, 2)]) ∨
    (∃ r < 4, ∃ a < 16, i.length = 10 ∧ i.operandFields = [(r, 2), (a, 4)]) ∨
    ∃ r0 < 4, ∃ r1 < 4, ∃ a < 16, i.length = 12 ∧ i.operandFields = [(r0, 2), (r1, 2), (a, 4)] := by
  cases i with
  | halt => exact .inl ⟨rfl, rfl⟩
  | inp r | out r => exact .inr (.inl ⟨r, by simpa [Instr.wf] using hwf, rfl, rfl⟩)
  | mover r a | movem r a =>
    obtain ⟨hr, ha⟩ : r < 4 ∧ a < 16 := by simpa [Instr.wf] using hwf
    exact .inr (.inr (.inl ⟨r, hr, a, ha, rfl, rfl⟩))
  | add r0 r1 a | sub r0 r1 a =>
    obtain ⟨⟨h0, h1⟩, ha⟩ : (r0 < 4 ∧ r1 < 4) ∧ a < 16 := by simpa [Instr.wf] using hwf
    exact .inr (.inr (.inr ⟨r0, h0, r1, h1, a, ha, rfl, rfl⟩))

/-- Settles O29: the word is the number the encoding spells, and in each format its fields are found by their places in it. -/
theorem formatsAndLengths : Obligations.FormatsAndLengths := by
  refine ⟨rfl, fun i bits henc => ?_⟩
  obtain ⟨hwf, rfl⟩ := encode_ok henc
  have hspell := fieldBits_bitsValue (fieldsBits i.fields)
  have hlt := bitsValue_lt (fieldsBits i.fields)
  rw [encodedBits_length] at hspell hlt
  refine ⟨encodedBits_length i, _, hspell.symm, hlt, ?_⟩
  show _ / 2 ^ (i.length - 4) = _ ∧ (i.length = 4 → _) ∧ (i.length = 6 → _) ∧ (i.length = 10 → _) ∧ (i.length = 12 → _)
  rw [bitsValue_fieldsBits fun f hf => (fields_fit hwf f hf).2, Instr.fields, ← operandFields_fst]
  rcases format_cases hwf with ⟨hlen, hfields⟩ | ⟨r, hr, hlen, hfields⟩ | ⟨r, hr, a, ha, hlen, hfields⟩ |
    ⟨r0, h0, r1, h1, a, ha, hlen, hfields⟩
  · simp [hlen, hfields, fieldsWord]
  · simp [hlen, hfields, fieldsWord]
    omega
  · simp [hlen, hfields, fieldsWord]
    omega
  · simp [hlen, hfields, fieldsWord]
    omega

/-- Settles O33: the words are short enough to decode by evaluation. -/
theorem tableWordsDecode : Obligations.TableWordsDecode := by
  unfold Obligations.TableWordsDecode
  decide

end Sys2Proof
end

section
/-!
What the encoder and the packer answer over any integers as operands (30_encoding.md R65).
-/

namespace Sys2Proof

/-- The instruction of a table row and as many operand values as the row has operands. -/
theorem exists_instr_of_row {row : OpcodeRow} (hrow : row ∈ opcodeTable) {vs : List Nat}
    (hlen : vs.length = row.operands.length) : ∃ i : Instr, i.row = row ∧ i.operands = vs := by
  simp only [opcodeTable, List.mem_cons, List.not_mem_nil, or_false] at hrow
  rcases hrow with rfl | rfl | rfl | rfl | rfl | rfl | rfl
  · obtain ⟨r, a, rfl⟩ := List.length_eq_two.mp hlen
    exact ⟨.mover r a, rfl, rfl⟩
  · obtain ⟨r, a, rfl⟩ := List.length_eq_two.mp hlen
    exact ⟨.movem r a, rfl, rfl⟩
  · obtain ⟨r0, r1, a, rfl⟩ := List.length_eq_three.mp hlen
    exact ⟨.add r0 r1 a, rfl, rfl⟩
  · obtain ⟨r0, r1, a, rfl⟩ := List.length_eq_three.mp hlen
    exact ⟨.sub r0 r1 a, rfl, rfl⟩
  · obtain rfl := List.eq_nil_of_length_eq_zero hlen
    exact ⟨.halt, rfl, rfl⟩
  · obtain ⟨r, rfl⟩ := List.length_eq_one_iff.mp hlen
    exact ⟨.inp r, rfl, rfl⟩
  · obtain ⟨r, rfl⟩ := List.length_eq_one_iff.mp hlen
    exact ⟨.out r, rfl, rfl⟩

theorem not_misfits_iff (f : Int × Nat) : ¬ Misfits f ↔ 0 ≤ f.1 ∧ f.1 < 2 ^ f.2 := by
  simp [Misfits]

/-- A wrong number of operands fails first. -/
theorem encodeFields_of_length_ne {row : OpcodeRow} {operands : List Int} (h : operands.length ≠ row.operands.length) :
    encodeFields row operands = .error (.operandCount row.operands.length operands.length) := by
  rw [encodeFields, if_pos h]

/-- Then the first value that does not fit its width. -/
theorem encodeFields_of_misfit {row : OpcodeRow} {operands : List Int} {before after : List (Int × Nat)} {v : Int} {w : Nat}
    (hlen : operands.length = row.operands.length) (hzip : operands.zip row.widths = before ++ (v, w) :: after)
    (hbefore : ∀ f ∈ before, ¬ Misfits f) (hv : Misfits (v, w)) : encodeFields row operands = .error (.encoding v w) := by
  rw [encodeFields, if_neg (not_not.mpr hlen), checkFields_error.mpr ⟨before, v, w, after, hzip, rfl, hv, hbefore⟩]

/-- What the checks refuse, the encoder and the packer refuse alike. -/
theorem encoder_error {row : OpcodeRow} {operands : List Int} {e : WriteError} (h : encodeFields row operands = .error e)
    (wr : BitWriter) : encodeOperands row operands = .error e ∧ wr.writeOperands row operands = .error e := by
  simp [encodeOperands, BitWriter.writeOperands, h]

/-- Operands that all fit are those of a well-formed instruction of the row. -/
theorem exists_wf_instr {row : OpcodeRow} (hrow : row ∈ opcodeTable) {operands : List Int}
    (hlen : operands.length = row.operands.length) (hfit : ∀ f ∈ operands.zip row.widths, ¬ Misfits f) :
    ∃ i : Instr, i.row = row ∧ i.wf = true ∧ i.encoderOperands = operands := by
  have nonneg : ∀ v ∈ operands, 0 ≤ v := by
    intro v hv
    have hwidths : operands.length ≤ row.widths.length := by rw [OpcodeRow.widths, List.length_map, hlen]
    rw [← List.map_fst_zip hwidths] at hv
    obtain ⟨f, hf, rfl⟩ := List.mem_map.mp hv
    exact ((not_misfits_iff f).mp (hfit f hf)).1
  obtain ⟨i, rfl, hoperands⟩ := exists_instr_of_row hrow (vs := operands.map Int.toNat) (by simpa using hlen)
  have back : i.encoderOperands = operands := by
    rw [Instr.encoderOperands, hoperands, List.map_map]
    exact (List.map_congr_left fun v hv => Int.toNat_of_nonneg (nonneg v hv)).trans (List.map_id _)
  exact ⟨i, rfl, (wf_iff_checkFields i).mpr (checkFields_ok.mpr (back ▸ hfit)), back⟩

/-- Settles O30: the checks go through count, values and success in that order, and the encoder and the packer write only what
passed them. -/
theorem encodeChecksEveryField : Obligations.EncodeChecksEveryField := by
  refine ⟨fun i => ⟨⟨fun h => ⟨_, encode_of_wf h⟩, fun ⟨_, h⟩ => (encode_ok h).1⟩, fun h => ?_⟩,
    fun row hrow operands wr => ⟨fun hlen => encoder_error (encodeFields_of_length_ne hlen) wr,
      fun before v w after hlen hzip hbefore hv => encoder_error ?_ wr, fun hlen hfit hgood => ?_⟩⟩
  · obtain ⟨before, v, w, after, hfields, hv, hbefore, herr⟩ := encodeFields_of_not_wf h
    exact ⟨before, v, w, after, hfields, hv, hbefore, (encoder_error herr .empty).1, fun wr => (encoder_error herr wr).2⟩
  · exact encodeFields_of_misfit hlen hzip (fun f hf => (not_misfits_iff f).mpr (hbefore f hf)) (by simpa [Misfits] using hv)
  · obtain ⟨i, rfl, hwf, rfl⟩ := exists_wf_instr hrow hlen fun f hf => (not_misfits_iff f).mpr (hfit f hf)
    exact ⟨i, _, _, rfl, hwf, rfl, encode_of_wf hwf, encode_of_wf hwf, writeInstr_of_wf wr hwf, pushBits_bits wr _,
      pushBits_good hgood _⟩

end Sys2Proof
end

section
/-!
The decoder's three answers (30_encoding.md R67, R68), what they depend on, and the fault an illegal opcode is (R71).
-/

namespace Sys2Proof

section

variable {P : Nat → Bit} {eof pc : Nat}

theorem decode_of_no_opcode (h : eof - pc < 4) : decode P eof pc = .error (.truncated 4 (eof - pc)) := by
  rw [decode, if_pos h]

theorem decode_of_illegal (h4 : 4 ≤ eof - pc) (hop : 7 ≤ field P pc 4) :
    decode P eof pc = .error (.unknownOpcode (field P pc 4)) := by
  rw [decode, if_neg h4.not_gt, decodeFields_none.mpr hop]

theorem decode_of_truncated (h4 : 4 ≤ eof - pc) (hop : field P pc 4 < 7) (hlen : eof - pc < lenOf (field P pc 4)) :
    decode P eof pc = .error (.truncated (lenOf (field P pc 4)) (eof - pc)) := by
  cases hfields : decodeFields P pc (field P pc 4) with
  | none => exact absurd (decodeFields_none.mp hfields) (by omega)
  | some i => simp only [decode, if_neg h4.not_gt, hfields, if_pos hlen]

theorem decode_of_fits (hop : field P pc 4 < 7) (hlen : lenOf (field P pc 4) ≤ eof - pc) :
    ∃ i, decode P eof pc = .ok (i, pc + i.length) ∧ i.opcode = field P pc 4 := by
  cases hfields : decodeFields P pc (field P pc 4) with
  | none => exact absurd (decodeFields_none.mp hfields) (by omega)
  | some i =>
    have hi : i.opcode = field P pc 4 := (decodeFields_some hfields).1
    exact ⟨i, decode_ok.mpr ⟨hfields, rfl, by rwa [Instr.length, hi]⟩, hi⟩

/-- The decoder calls an opcode unknown only where it is illegal (R71). -/
theorem illegal_of_decode {op : Nat} (h : decode P eof pc = .error (.unknownOpcode op)) : 7 ≤ field P pc 4 := by
  by_contra hop
  have hop : field P pc 4 < 7 := not_le.mp hop
  by_cases h4 : eof - pc < 4
  · simp [decode_of_no_opcode h4] at h
  by_cases hlen : eof - pc < lenOf (field P pc 4)
  · simp [decode_of_truncated (not_lt.mp h4) hop hlen] at h
  · obtain ⟨i, hi, -⟩ := decode_of_fits hop (not_lt.mp hlen)
    simp [hi] at h

/-- Programs that agree from `pc` up to `eof` decode alike: the decoder reads no other bit (the spec's decision D4). -/
theorem decode_congr {Q : Nat → Bit} (h : ∀ b, pc ≤ b → b < eof → P b = Q b) : decode P eof pc = decode Q eof pc := by
  by_cases h4 : eof - pc < 4
  · rw [decode_of_no_opcode h4, decode_of_no_opcode h4]
  have same_opcode : field P pc 4 = field Q pc 4 := field_congr fun k hk => h _ (by omega) (by omega)
  rcases Nat.lt_or_ge (field P pc 4) 7 with hop | hop
  · by_cases hlen : eof - pc < lenOf (field P pc 4)
    · rw [decode_of_truncated (not_lt.mp h4) hop hlen, decode_of_truncated (not_lt.mp h4) (same_opcode ▸ hop) (same_opcode ▸ hlen),
        same_opcode]
    · have same_fields : decodeFields P pc (field P pc 4) = decodeFields Q pc (field P pc 4) :=
        decodeFields_congr fun k hk => h _ (by omega) (by omega)
      rw [decode, decode, same_fields, same_opcode]
  · rw [decode_of_illegal (not_lt.mp h4) hop, decode_of_illegal (not_lt.mp h4) (same_opcode ▸ hop), same_opcode]

end

/-- Settles O26: the answers by the bits left and the opcode, and that the decoder reads nothing else. -/
theorem decodeIsTotalAndLocal : Obligations.DecodeIsTotalAndLocal := by
  refine fun P eof pc _ => ⟨?_, fun Q h => decode_congr h⟩
  by_cases h4 : eof - pc < 4
  · exact .inr (.inl ⟨4, decode_of_no_opcode h4, h4, .inl rfl⟩)
  rcases Nat.lt_or_ge (field P pc 4) 7 with hop | hop
  · by_cases hlen : eof - pc < lenOf (field P pc 4)
    · exact .inr (.inl ⟨_, decode_of_truncated (not_lt.mp h4) hop hlen, hlen, .inr rfl⟩)
    · obtain ⟨i, hi, hop⟩ := decode_of_fits hop (not_lt.mp hlen)
      obtain ⟨hwf, -, hend⟩ := decode_wf hi
      exact .inl ⟨i, hi, hwf, hend, hop⟩
  · have := field_lt P pc 4
    exact .inr (.inr ⟨decode_of_illegal (not_lt.mp h4) hop, by omega, hop, by omega⟩)

end Sys2Proof

namespace Sys2Proof.Machine

/-- No effect of an instruction is the status `Faulted`. -/
theorem Effect.status_ne_faulted {i : Instr} {s t : State} (h : Effect i s t) (hs : s.status ≠ .faulted) : t.status ≠ .faulted := by
  cases h with
  | halt => exact nofun
  | _ => exact hs

/-- A transition that enters `Faulted` with `UnknownOpcodeError` is a fetch of an unknown opcode: no dispatch check raises it. -/
theorem Transition.unknownOpcode {s t : State} (h : Transition s t) (hterm : s.status.isTerminal = false) {op : Nat}
    (hfault : EntersFaulted s t s.pc .unknownOpcode 2 (.opcode op)) : s.fetch = .error (.unknownOpcode op) := by
  have hstatus : t.status = .faulted := hfault.status
  have hkind : t.fault.map FaultRecord.kind = some .unknownOpcode := by rw [hfault.fault]; rfl
  have hinfo : t.fault.map FaultRecord.info = some (.opcode op) := by rw [hfault.fault]; rfl
  cases h with
  | terminal h => simp [h] at hterm
  | endCheck => cases hstatus
  | decodeFault _ _ hfetch =>
    rename_i e
    cases e with
    | truncated => cases hkind
    | unknownOpcode op' =>
      cases hinfo
      exact hfetch
  | complete _ _ _ heff => exact absurd hstatus (heff.status_ne_faulted nofun)
  | dispatchFault _ _ _ hraise =>
    cases hkind
    cases hraise
  | wait => simp [hstatus, Status.isTerminal] at hterm

/-- Settles O27: an illegal opcode is a decode error, on which the step enters `Faulted`; and no other fault is of that kind. -/
theorem illegalOpcodesFault : Obligations.IllegalOpcodesFault := by
  intro s hterm heof hsize
  constructor
  · intro hop
    have hfetch : s.fetch = .error (.unknownOpcode (field s.progBit s.pc 4)) := decode_of_illegal (by omega) hop
    have hend : s.atEnd = false := atEnd_eq_false.mpr ⟨by omega, hsize⟩
    exact ⟨_, _, step_decodeFault hterm hend hfetch, ⟨rfl, rfl, rfl, rfl, rfl, rfl, rfl, rfl, rfl⟩⟩
  · rintro ⟨t, op, hstep, hfault⟩
    exact illegal_of_decode ((transition_of_step hstep).unknownOpcode hterm hfault)

/-- The two count bytes of a container give back the end marker (30_encoding.md R76). -/
theorem parseContainer_makeContainer {image : List Bits8} {eofBits : Nat} (heof : eofBits < 65536)
    (himage : image.length = imageLength eofBits) : parseContainer (makeContainer image eofBits) = .ok (image, eofBits) := by
  have hcount : 256 * (BitVec.ofNat 8 (eofBits / 256)).toNat + (BitVec.ofNat 8 eofBits).toNat = eofBits := by
    simp only [BitVec.toNat_ofNat]
    omega
  rw [makeContainer, parseContainer, hcount, if_pos himage]

/-- Settles O42: taking the container apart gives the image and the end marker it was made of. -/
theorem containerRoundTrip : Obligations.ContainerRoundTrip := by
  intro p image eofBits dataImage heof himage
  refine ⟨Nat.add_comm image.length 2, ?_⟩
  rw [instantiateContainer, parseContainer_makeContainer heof himage]

end Sys2Proof.Machine
end

section
/-!
One source statement (30_encoding.md R82 to R85): operand forms, then the table's checks in order, then the instruction.
-/

namespace Sys2Proof.Machine

theorem classifyDecimal_eq_some {cs : List Char} {op : Operand} :
    classifyDecimal cs = some op ↔ (cs ≠ [] ∧ ∀ c ∈ cs, c.isDigit = true) ∧ .addr (decimalValue cs) = op := by
  simp [classifyDecimal]

/-- `R` and one digit is a register reference, and only that (R84, D18). -/
theorem classifyChars_eq_reg {cs : List Char} {n : Nat} :
    classifyChars cs = some (.reg n) ↔ ∃ d, d.isDigit = true ∧ cs = ['R', d] ∧ n = digitValue d := by
  unfold classifyChars
  split
  · simp [eq_comm (a := n)]
  · rename_i hne
    constructor
    · intro h
      simp [classifyDecimal_eq_some] at h
    · rintro ⟨d, -, rfl, -⟩
      exact absurd rfl (hne d)

/-- One or more decimal digits are an address, and only those (R84, D18). -/
theorem classifyChars_eq_addr {cs : List Char} {n : Nat} :
    classifyChars cs = some (.addr n) ↔ cs ≠ [] ∧ (∀ c ∈ cs, c.isDigit = true) ∧ n = decimalValue cs := by
  unfold classifyChars
  split
  · have hR : Char.isDigit 'R' = false := by decide
    simp [hR]
  · simp [classifyDecimal_eq_some, and_assoc, eq_comm (a := n)]

theorem mem_digits {d : Char} (h : d.isDigit = true) : d ∈ ['0', '1', '2', '3', '4', '5', '6', '7', '8', '9'] := by
  have digits : ∀ k < 10, Char.ofNat (48 + k) ∈ ['0', '1', '2', '3', '4', '5', '6', '7', '8', '9'] := by decide
  obtain ⟨hlo, hhi⟩ : 48 ≤ d.toNat ∧ d.toNat ≤ 57 := by
    simpa [Char.isDigit, UInt32.le_iff_toNat_le] using h
  have hd : Char.ofNat (48 + (d.toNat - 48)) = d := by rw [Nat.add_sub_cancel' hlo, Char.ofNat_toNat]
  exact hd ▸ digits _ (by omega)

theorem decimalValue_append (cs : List Char) (d : Char) : decimalValue (cs ++ [d]) = 10 * decimalValue cs + digitValue d := by
  simp [decimalValue]

section

variable {kind : OperandKind} {w pos : Nat} {text : String} {fields : List (OperandKind × Nat)} {texts : List String}

theorem classifyOperands_cons_bad (h : ∀ op, classifyChars text.toList = some op → op.kind ≠ kind) :
    classifyOperands pos ((kind, w) :: fields) (text :: texts) = .error (.operand text pos) := by
  cases hop : classifyChars text.toList with
  | none => simp [classifyOperands, hop]
  | some op => simp [classifyOperands, hop, h op hop]

theorem classifyOperands_cons_good {op : Operand} (h : classifyChars text.toList = some op) (hkind : op.kind = kind) :
    classifyOperands pos ((kind, w) :: fields) (text :: texts) =
      (classifyOperands (pos + 1) fields texts).map (op.value :: ·) := by
  cases hrest : classifyOperands (pos + 1) fields texts <;> simp [classifyOperands, h, hkind, hrest, Except.map]

/-- The text at position `k` spells nothing of the kind its field declares: `BadOperandAt`, over any fields. -/
def BadTextAt (fields : List (OperandKind × Nat)) (texts : List String) (k : Nat) (text : String) : Prop :=
  texts[k]? = some text ∧ ∃ kind w, fields[k]? = some (kind, w) ∧ ∀ op, classifyChars text.toList = some op → op.kind ≠ kind

/-- The first text of no form or another kind is reported with its position (R83, R84). -/
theorem classifyOperands_of_bad {k : Nat} (h : BadTextAt fields texts k text)
    (hfirst : ∀ j < k, ∀ u, ¬ BadTextAt fields texts j u) : classifyOperands pos fields texts = .error (.operand text (pos + k)) := by
  induction fields generalizing pos texts k with
  | nil =>
    obtain ⟨-, kind, w, hfield, -⟩ := h
    simp at hfield
  | cons f fs ih =>
    cases texts with
    | nil =>
      obtain ⟨htext, -⟩ := h
      simp at htext
    | cons head texts =>
      cases k with
      | zero =>
        obtain ⟨htext, kind, w, hfield, hbad⟩ := h
        cases htext
        cases hfield
        exact classifyOperands_cons_bad hbad
      | succ k =>
        have hgood : ¬ ∀ op, classifyChars head.toList = some op → op.kind ≠ f.1 := fun hbad =>
          hfirst 0 k.succ_pos head ⟨rfl, f.1, f.2, rfl, hbad⟩
        push Not at hgood
        obtain ⟨op, hop, hkind⟩ := hgood
        have hrest : classifyOperands (pos + 1) fs texts = .error (.operand text (pos + 1 + k)) :=
          ih h fun j hj => hfirst (j + 1) (Nat.succ_lt_succ hj)
        rw [classifyOperands_cons_good hop hkind, hrest, Nat.add_right_comm, Nat.add_assoc]
        rfl

/-- Texts that spell values of the fields' kinds are classified as those values (R84). -/
theorem classifyOperands_of_spells {values : List Nat} (h : List.Forall₂ Operand.Spells (fields.zip values) texts)
    (hlen : values.length = fields.length) : classifyOperands pos fields texts = .ok values := by
  induction fields generalizing pos values texts with
  | nil =>
    obtain rfl := List.eq_nil_of_length_eq_zero hlen
    rfl
  | cons f fs ih =>
    obtain ⟨v, vs, rfl⟩ := List.exists_cons_of_length_eq_add_one hlen
    rw [List.zip_cons_cons, List.forall₂_cons_left_iff] at h
    obtain ⟨text, texts, ⟨op, hop, hkind, rfl⟩, hrest, rfl⟩ := h
    rw [classifyOperands_cons_good hop hkind, ih hrest (by simpa using hlen)]
    rfl

/-- What classification reports is an operand of a wrong form or kind. -/
theorem classifyOperands_error {info : AsmInfo} (h : classifyOperands pos fields texts = .error info) :
    ∃ text k, info = .operand text k := by
  induction fields generalizing pos texts info with
  | nil => cases h
  | cons f fs ih =>
    cases texts with
    | nil => cases h
    | cons text texts =>
      by_cases hbad : ∀ op, classifyChars text.toList = some op → op.kind ≠ f.1
      · rw [classifyOperands_cons_bad hbad] at h
        exact ⟨text, pos, (Except.error.inj h).symm⟩
      · push Not at hbad
        obtain ⟨op, hop, hkind⟩ := hbad
        rw [classifyOperands_cons_good hop hkind] at h
        cases hrest : classifyOperands (pos + 1) fs texts with
        | error e =>
          rw [hrest] at h
          exact Except.error.inj h ▸ ih hrest
        | ok vs =>
          rw [hrest] at h
          cases h

end

theorem rowOfMnemonic_eq_none {name : String} : rowOfMnemonic name = none ↔ name ∉ opcodeTable.map OpcodeRow.mnemonic := by
  simp [rowOfMnemonic]

theorem rowOfMnemonic_of_mem : ∀ row ∈ opcodeTable, rowOfMnemonic row.mnemonic = some row := by decide

theorem assembleStatement_unknown {name : String} (h : rowOfMnemonic name = none) (texts : List String) :
    assembleStatement name texts = .error (.mnemonic name) := by
  simp [assembleStatement, h]

section

variable {name : String} {texts : List String} {row : OpcodeRow}

theorem assembleStatement_count (hrow : rowOfMnemonic name = some row) (hlen : row.operands.length ≠ texts.length) :
    assembleStatement name texts = .error (.count row.operands.length texts.length) := by
  simp [assembleStatement, hrow, hlen]

theorem assembleStatement_operand {info : AsmInfo} (hrow : rowOfMnemonic name = some row)
    (hlen : row.operands.length = texts.length) (hclass : classifyOperands 0 row.operands texts = .error info) :
    assembleStatement name texts = .error info := by
  simp [assembleStatement, hrow, hlen, hclass]

theorem assembleStatement_value {vs : List Nat} {e : WriteError} (hrow : rowOfMnemonic name = some row)
    (hlen : row.operands.length = texts.length) (hclass : classifyOperands 0 row.operands texts = .ok vs)
    (henc : encodeFields row (vs.map Int.ofNat) = .error e) : assembleStatement name texts = .error (writeErrorReport e) := by
  simp [assembleStatement, hrow, hlen, hclass, henc]

theorem row_opcode (i : Instr) : i.row.opcode = i.opcode := by cases i <;> rfl

/-- Values that pass the encoder's checks make up the statement's instruction. -/
theorem assembleStatement_instr {vs : List Nat} (hrow : rowOfMnemonic name = some row)
    (hlen : row.operands.length = texts.length) (hclass : classifyOperands 0 row.operands texts = .ok vs)
    (hvs : vs.length = row.operands.length) (hfit : ∀ f ∈ (vs.map Int.ofNat).zip row.widths, ¬ Misfits f) :
    ∃ i, assembleStatement name texts = .ok i ∧ i.wf = true ∧ i.row = row ∧ i.operands = vs := by
  obtain ⟨i, rfl, hwf, hoperands⟩ := exists_wf_instr (List.mem_of_find?_eq_some hrow) (by simpa using hvs) hfit
  obtain rfl : i.operands = vs := List.map_injective_iff.mpr (fun _ _ => Int.ofNat.inj) hoperands
  have hinstr : Instr.ofOperands i.row.opcode i.operands = some i := ofOperands_eq_some.mpr ⟨(row_opcode i).symm, rfl⟩
  have henc := encodeFields_of_wf hwf
  rw [Instr.encoderOperands] at henc
  exact ⟨i, by simp [assembleStatement, hrow, hlen, hclass, henc, hinstr], hwf, rfl, rfl⟩

/-- A statement with a mnemonic of the table becomes a well-formed instruction, or fails with another report than the one that
aborts the run. -/
theorem assembleStatement_known (hrow : rowOfMnemonic name = some row) (texts : List String) :
    (∃ i, assembleStatement name texts = .ok i ∧ i.wf = true) ∨
      ∃ info, assembleStatement name texts = .error info ∧ ∀ m, info ≠ .mnemonic m := by
  by_cases hlen : row.operands.length = texts.length
  · cases hclass : classifyOperands 0 row.operands texts with
    | error info =>
      obtain ⟨text, k, rfl⟩ := classifyOperands_error hclass
      exact .inr ⟨_, assembleStatement_operand hrow hlen hclass, nofun⟩
    | ok vs =>
      rcases encodeFields_cases row (vs.map Int.ofNat) with ⟨-, henc⟩ | ⟨-, _, _, _, _, -, -, -, henc⟩ | ⟨hvs, hfit, -⟩
      · exact .inr ⟨_, assembleStatement_value hrow hlen hclass henc, nofun⟩
      · exact .inr ⟨_, assembleStatement_value hrow hlen hclass henc, nofun⟩
      · obtain ⟨i, hi, hwf, -⟩ := assembleStatement_instr hrow hlen hclass (by simpa using hvs) hfit
        exact .inl ⟨i, hi, hwf⟩
  · exact .inr ⟨_, assembleStatement_count hrow hlen, nofun⟩

end

/-- A field's value as the encoder takes it. -/
def castField (f : Nat × Nat) : Int × Nat := ((f.1 : Int), f.2)

theorem not_misfits_castField (f : Nat × Nat) : ¬ Misfits (castField f) ↔ f.1 < 2 ^ f.2 := by
  rw [castField, misfits_natCast, not_le]

theorem zip_map_ofNat (vs ws : List Nat) : (vs.map Int.ofNat).zip ws = (vs.zip ws).map castField := List.zip_map_left

/-- Settles O59: the operand forms character by character, then each check of a statement in the table's order. -/
theorem statementsAssembleByTheTable : Obligations.StatementsAssembleByTheTable := by
  refine ⟨fun cs n => ⟨classifyChars_eq_reg, classifyChars_eq_addr⟩, rfl, fun d => mem_digits, rfl, decimalValue_append,
    fun row hmem texts => ?_⟩
  have hrow := rowOfMnemonic_of_mem row hmem
  refine ⟨fun hlen => assembleStatement_count hrow hlen.symm, fun k text hlen hbad hfirst => ?_, fun values hspells hvalues => ?_⟩
  · have hclass := classifyOperands_of_bad (pos := 0) hbad hfirst
    rw [Nat.zero_add] at hclass
    exact assembleStatement_operand hrow hlen.symm hclass
  · have hlen : row.operands.length = texts.length := by
      rw [← hspells.length_eq, List.length_zip, hvalues, Nat.min_self]
    have hclass : classifyOperands 0 row.operands texts = .ok values := classifyOperands_of_spells hspells hvalues
    refine ⟨fun before v w after hzip hbefore hv => ?_, fun hfit => ?_⟩
    · have hcast : (values.map Int.ofNat).zip row.widths = before.map castField ++ ((v : Int), w) :: after.map castField := by
        rw [zip_map_ofNat, OpcodeRow.widths, hzip, List.map_append, List.map_cons, castField]
      have hfits : ∀ f ∈ before.map castField, ¬ Misfits f :=
        List.forall_mem_map.mpr fun f hf => (not_misfits_castField f).mpr (hbefore f hf)
      exact assembleStatement_value hrow hlen hclass
        (encodeFields_of_misfit (by simpa using hvalues) hcast hfits ((misfits_natCast v w).mpr hv))
    · have hfits : ∀ f ∈ (values.map Int.ofNat).zip row.widths, ¬ Misfits f := by
        rw [zip_map_ofNat]
        exact List.forall_mem_map.mpr fun f hf => (not_misfits_castField f).mpr (hfit f hf)
      obtain ⟨i, hi, hwf, rfl, hoperands⟩ := assembleStatement_instr hrow hlen hclass hvalues hfits
      exact ⟨i, hi, hwf, (row_opcode i).symm, hoperands⟩

end Sys2Proof.Machine
end

section
/-!
A whole run of the assembler (30_encoding.md R80 to R86): the driver's state after any statements it does not abort at, from which the
image, the accepted instructions and the reported errors are read off.
-/

namespace Sys2Proof.Machine

/-- A statement whose mnemonic is not in the table: the run aborts there (R82). -/
def Aborts : List String → Prop
  | [] => False
  | name :: _ => name ∉ opcodeTable.map OpcodeRow.mnemonic

/-- What is reported of the statement with number `n`, if anything (R83, R85, R86). -/
def statementError (n : Nat) : List String → Option AsmError
  | [] => none
  | name :: texts =>
    match assembleStatement name texts with
    | .ok _ => none
    | .error info => some { statement := n, info := info }

/-- The instructions a source's statements become, in order. -/
def sourceInstrs (source : List (List String)) : List Instr := source.filterMap statementInstr

/-- What is reported of a source whose first statement has number `n`. -/
def sourceErrors (n : Nat) (source : List (List String)) : List AsmError :=
  (source.zipIdx n).filterMap fun p => statementError p.2 p.1

/-- The encodings of instructions one after another. -/
def codeBits (is : List Instr) : List Bit := is.flatMap fun i => fieldsBits i.fields

/-- The sum of the lengths of instructions. -/
def codeLength (is : List Instr) : Nat := (is.map Instr.length).sum

/-- The driver's state after the statements of `source`, the first of them with number `n`. -/
def AsmState.after (st : AsmState) (n : Nat) (source : List (List String)) : AsmState where
  writer := st.writer.pushBits (codeBits (sourceInstrs source))
  bitCount := st.bitCount + codeLength (sourceInstrs source)
  accepted := st.accepted ++ sourceInstrs source
  errors := st.errors ++ sourceErrors n source

theorem codeBits_append (is js : List Instr) : codeBits (is ++ js) = codeBits is ++ codeBits js := List.flatMap_append

theorem codeBits_cons (i : Instr) (is : List Instr) : codeBits (i :: is) = fieldsBits i.fields ++ codeBits is := rfl

theorem codeLength_cons (i : Instr) (is : List Instr) : codeLength (i :: is) = i.length + codeLength is := by
  simp [codeLength]

theorem codeLength_append (is js : List Instr) : codeLength (is ++ js) = codeLength is + codeLength js := by
  simp [codeLength]

@[simp] theorem codeBits_length (is : List Instr) : (codeBits is).length = codeLength is := by
  simp [codeBits, codeLength, List.length_flatMap, encodedBits_length]

theorem sourceInstrs_append (xs ys : List (List String)) : sourceInstrs (xs ++ ys) = sourceInstrs xs ++ sourceInstrs ys :=
  List.filterMap_append

theorem sourceErrors_append (n : Nat) (xs ys : List (List String)) :
    sourceErrors n (xs ++ ys) = sourceErrors n xs ++ sourceErrors (n + xs.length) ys := by
  rw [sourceErrors, List.zipIdx_append, List.filterMap_append, sourceErrors, sourceErrors]

theorem AsmState.after_nil (st : AsmState) (n : Nat) : st.after n [] = st := by
  simp [AsmState.after, sourceInstrs, sourceErrors, codeBits, codeLength, BitWriter.pushBits]

theorem AsmState.after_start (n : Nat) (source : List (List String)) : AsmState.start.after n source =
    { writer := BitWriter.empty.pushBits (codeBits (sourceInstrs source)), bitCount := codeLength (sourceInstrs source),
      accepted := sourceInstrs source, errors := sourceErrors n source } := by
  simp [AsmState.after, AsmState.start]

theorem AsmState.after_append (st : AsmState) (n : Nat) (xs ys : List (List String)) :
    st.after n (xs ++ ys) = (st.after n xs).after (n + xs.length) ys := by
  simp [AsmState.after, sourceInstrs_append, sourceErrors_append, codeBits_append, codeLength_append, pushBits_append, Nat.add_assoc]

/-- A statement that becomes a well-formed instruction is emitted. -/
theorem AsmState.after_instr {stmt : List String} {i : Instr} (st : AsmState) (n : Nat) (hinstr : statementInstr stmt = some i)
    (herror : statementError n stmt = none) (hwf : i.wf = true) : st.after n [stmt] = st.emit n i := by
  simp [AsmState.after, AsmState.emit, sourceInstrs, sourceErrors, hinstr, herror, writeInstr_of_wf _ hwf, codeBits, codeLength]

/-- A statement that fails is skipped. -/
theorem AsmState.after_error {stmt : List String} {info : AsmInfo} (st : AsmState) (n : Nat) (hinstr : statementInstr stmt = none)
    (herror : statementError n stmt = some { statement := n, info := info }) : st.after n [stmt] = st.skip n info := by
  simp [AsmState.after, AsmState.skip, sourceInstrs, sourceErrors, hinstr, herror, codeBits, codeLength, BitWriter.pushBits]

/-- A blank statement does nothing. -/
theorem AsmState.after_blank (st : AsmState) (n : Nat) : st.after n [[]] = st := st.after_nil n

theorem exists_row_of_not_aborts {name : String} {texts : List String} (h : ¬ Aborts (name :: texts)) :
    ∃ row, rowOfMnemonic name = some row :=
  Option.ne_none_iff_exists'.mp fun hnone => h (rowOfMnemonic_eq_none.mp hnone)

/-- One statement that does not abort takes the driver to its state after it. -/
theorem assembleFrom_cons {n : Nat} {st : AsmState} {stmt : List String} {rest : List (List String)} (h : ¬ Aborts stmt) :
    assembleFrom n st (stmt :: rest) = assembleFrom (n + 1) (st.after n [stmt]) rest := by
  cases stmt with
  | nil => rw [assembleFrom, AsmState.after_blank]
  | cons name texts =>
    obtain ⟨row, hrow⟩ := exists_row_of_not_aborts h
    rcases assembleStatement_known hrow texts with ⟨i, hi, hwf⟩ | ⟨info, hinfo, hne⟩
    · rw [AsmState.after_instr st n (by simp [statementInstr, hi, Except.toOption]) (by simp [statementError, hi]) hwf]
      simp only [assembleFrom, hi]
    · rw [AsmState.after_error (info := info) st n (by simp [statementInstr, hinfo, Except.toOption]) (by simp [statementError, hinfo])]
      cases info with
      | mnemonic m => exact absurd rfl (hne m)
      | encoding | count | operand => simp only [assembleFrom, hinfo]

/-- Statements that do not abort take the driver to its state after them. -/
theorem assembleFrom_append {before rest : List (List String)} (n : Nat) (st : AsmState) (h : ∀ stmt ∈ before, ¬ Aborts stmt) :
    assembleFrom n st (before ++ rest) = assembleFrom (n + before.length) (st.after n before) rest := by
  induction before generalizing n st with
  | nil => rw [AsmState.after_nil, List.nil_append, List.length_nil, Nat.add_zero]
  | cons stmt before ih =>
    have hafter : st.after n (stmt :: before) = (st.after n [stmt]).after (n + 1) before := st.after_append n [stmt] before
    rw [List.cons_append, assembleFrom_cons (h stmt (by simp)), ih _ _ (fun s hs => h s (by simp [hs])), hafter, List.length_cons,
      Nat.add_right_comm, Nat.add_assoc]

/-- A run that meets no unknown mnemonic ends with what the driver holds after the whole source (R75, R86). -/
theorem assemble_of_known {source : List (List String)} (h : ∀ stmt ∈ source, ¬ Aborts stmt) :
    assemble source = (AsmState.start.after 1 source).finish := by
  have := assembleFrom_append (rest := []) 1 AsmState.start h
  rwa [List.append_nil] at this

/-- A run aborts at the first unknown mnemonic, which is reported last (R82). -/
theorem assemble_of_unknown {before after : List (List String)} {name : String} {texts : List String}
    (h : ∀ stmt ∈ before, ¬ Aborts stmt) (hname : name ∉ opcodeTable.map OpcodeRow.mnemonic) :
    assemble (before ++ (name :: texts) :: after) =
      .aborted (sourceErrors 1 before ++ [{ statement := before.length + 1, info := .mnemonic name }]) := by
  rw [assemble, assembleFrom_append 1 _ h, assembleFrom, assembleStatement_unknown (rowOfMnemonic_eq_none.mpr hname), Nat.add_comm 1]
  rfl

/-- A source has no unknown mnemonic, or a first one. -/
theorem known_or_first_unknown (source : List (List String)) :
    (∀ stmt ∈ source, ¬ Aborts stmt) ∨ ∃ before name texts after, source = before ++ (name :: texts) :: after ∧
      (∀ stmt ∈ before, ¬ Aborts stmt) ∧ name ∉ opcodeTable.map OpcodeRow.mnemonic := by
  induction source with
  | nil => exact .inl nofun
  | cons stmt rest ih =>
    by_cases hstmt : Aborts stmt
    · cases stmt with
      | nil => exact hstmt.elim
      | cons name texts => exact .inr ⟨[], name, texts, rest, rfl, nofun, hstmt⟩
    · rcases ih with hknown | ⟨before, name, texts, after, rfl, hknown, hname⟩
      · exact .inl (List.forall_mem_cons.mpr ⟨hstmt, hknown⟩)
      · exact .inr ⟨stmt :: before, name, texts, after, rfl, List.forall_mem_cons.mpr ⟨hstmt, hknown⟩, hname⟩

/-- Settles O57: a run aborts at the first unknown mnemonic, and with none it yields an image. -/
theorem unknownMnemonicAborts : Obligations.UnknownMnemonicAborts := by
  intro source
  rcases known_or_first_unknown source with hknown | ⟨before, name, texts, after, rfl, hknown, hname⟩
  · have hrun := assemble_of_known hknown
    refine ⟨⟨?_, ?_⟩, ?_⟩
    · rintro ⟨errors, h⟩
      rw [hrun] at h
      cases h
    · rintro ⟨name, texts, hmem, hname⟩
      exact absurd hname (hknown _ hmem)
    · intro errors h
      rw [hrun] at h
      cases h
  · have hrun := assemble_of_unknown (texts := texts) (after := after) hknown hname
    refine ⟨⟨fun _ => ⟨name, texts, by simp, hname⟩, fun _ => ⟨_, hrun⟩⟩, fun errors h => ?_⟩
    rw [hrun] at h
    cases h
    exact ⟨before, name, texts, after, rfl, hname, fun n ts hmem => not_not.mp (hknown _ hmem), by simp⟩

/-- What a run that yields an image has done: no mnemonic was unknown, and the rest is the driver's last state (R75, R86). -/
theorem result_of_assembled {source : List (List String)} {image : List Bits8} {eofBits : Nat} {accepted : List Instr}
    {errors : List AsmError} (h : assemble source = .assembled image eofBits accepted errors) :
    image = (BitWriter.empty.pushBits (codeBits accepted)).flush.emitted ∧ eofBits = codeLength accepted ∧
      accepted = sourceInstrs source ∧ errors = sourceErrors 1 source := by
  rcases known_or_first_unknown source with hknown | ⟨before, name, texts, after, rfl, hknown, hname⟩
  · rw [assemble_of_known hknown, AsmState.after_start] at h
    cases h
    exact ⟨rfl, rfl, rfl, rfl⟩
  · rw [assemble_of_unknown hknown hname] at h
    cases h

theorem statementError_eq_some {n : Nat} {stmt : List String} {e : AsmError} :
    statementError n stmt = some e ↔
      ∃ name texts info, stmt = name :: texts ∧ assembleStatement name texts = .error info ∧
        e = { statement := n, info := info } := by
  cases stmt with
  | nil => simp [statementError]
  | cons name texts => cases h : assembleStatement name texts <;> simp [statementError, h, eq_comm]

theorem mem_sourceErrors {source : List (List String)} {n : Nat} {info : AsmInfo} :
    ({ statement := n, info := info } : AsmError) ∈ sourceErrors 1 source ↔
      ∃ k name texts, n = k + 1 ∧ source[k]? = some (name :: texts) ∧ assembleStatement name texts = .error info := by
  simp only [sourceErrors, List.mem_filterMap, Prod.exists, List.mk_mem_zipIdx_iff_le_and_getElem?_sub, statementError_eq_some]
  constructor
  · rintro ⟨stmt, m, ⟨hm, hstmt⟩, name, texts, _, rfl, herr, he⟩
    cases he
    exact ⟨n - 1, name, texts, by omega, hstmt, herr⟩
  · rintro ⟨k, name, texts, rfl, hstmt, herr⟩
    exact ⟨_, k + 1, ⟨by omega, by simpa using hstmt⟩, name, texts, info, rfl, herr, rfl⟩

/-- Settles O58: the accepted instructions and the errors are read off the statements one by one. -/
theorem failedStatementsAreSkipped : Obligations.FailedStatementsAreSkipped := by
  intro source image eofBits accepted errors h
  obtain ⟨-, -, haccepted, rfl⟩ := result_of_assembled h
  exact ⟨haccepted, fun n info => mem_sourceErrors⟩

end Sys2Proof.Machine
end

section
/-!
The image of a run: its bits are the accepted encodings (30_encoding.md R75), so a core that loads it decodes the accepted
instructions; and the debug text mirror, which spells the same bits (R88).
-/

namespace Sys2Proof.Machine

theorem wf_of_statementInstr {stmt : List String} {i : Instr} (h : statementInstr stmt = some i) : i.wf = true := by
  cases stmt with
  | nil => cases h
  | cons name texts =>
    cases hrow : rowOfMnemonic name with
    | none => simp [statementInstr, assembleStatement_unknown hrow, Except.toOption] at h
    | some row =>
      rcases assembleStatement_known hrow texts with ⟨j, hj, hwf⟩ | ⟨info, hinfo, -⟩
      · rw [statementInstr, hj] at h
        cases h
        exact hwf
      · simp [statementInstr, hinfo, Except.toOption] at h

/-- Everything the assembler accepts is well formed, so it encodes. -/
theorem wf_of_mem_sourceInstrs {source : List (List String)} {i : Instr} (h : i ∈ sourceInstrs source) : i.wf = true := by
  obtain ⟨stmt, -, hstmt⟩ := List.mem_filterMap.mp h
  exact wf_of_statementInstr hstmt

/-- A flushed stream of `n` bits has `ceil(n/8)` bytes, and its bits are padded with zeros to a byte boundary (R61, R75). -/
theorem flush_pushBits_empty {bits : List Bit} {image : List Bits8} (h : image = (BitWriter.empty.pushBits bits).flush.emitted) :
    image.length = imageLength bits.length ∧ imageBits image = bits ++ List.replicate (8 * image.length - bits.length) 0 := by
  have hbits := flush_imageBits (pushBits_good empty_good bits)
  rw [← h, pushBits_bits, show BitWriter.empty.bits = [] from rfl, List.nil_append] at hbits
  have hlen := congrArg List.length hbits
  rw [imageBits_length, List.length_append, List.length_replicate] at hlen
  refine ⟨by rw [imageLength]; omega, hbits.trans ?_⟩
  rw [hlen, Nat.add_sub_cancel_left]

/-- The image of a run: as many bytes as the accepted instructions fill, holding their encodings and then zeros. -/
theorem image_of_assembled {source : List (List String)} {image : List Bits8} {eofBits : Nat} {accepted : List Instr}
    {errors : List AsmError} (h : assemble source = .assembled image eofBits accepted errors) :
    image.length = imageLength eofBits ∧
      imageBits image = codeBits accepted ++ List.replicate (8 * image.length - eofBits) 0 := by
  obtain ⟨himage, rfl, -, -⟩ := result_of_assembled h
  rw [← codeBits_length]
  exact flush_pushBits_empty himage

/-- Settles O55: the run's last state, and the encodings as the packed fields of well-formed instructions. -/
theorem imageIsTheAcceptedEncodings : Obligations.ImageIsTheAcceptedEncodings := by
  intro source image eofBits accepted errors h
  obtain ⟨hlen, hbits⟩ := image_of_assembled h
  obtain ⟨-, heof, haccepted, -⟩ := result_of_assembled h
  refine ⟨haccepted, heof, hlen, accepted.map fun i => fieldsBits i.fields, ?_, ?_⟩
  · rw [List.map_map]
    exact List.map_congr_left fun i hi => encode_of_wf (wf_of_mem_sourceInstrs (haccepted ▸ hi))
  · rw [hbits, codeBits, List.flatMap_def]

/-- Settles O56: program memory reads as the image, where each accepted encoding lies at the sum of the lengths before it. -/
theorem loadedImageDecodesToSource : Obligations.LoadedImageDecodesToSource := by
  intro source image eofBits accepted errors p dataImage h hprog hdata
  obtain ⟨hlen, hbits⟩ := image_of_assembled h
  obtain ⟨-, heof, haccepted, -⟩ := result_of_assembled h
  have hload : instantiate p image eofBits dataImage = .ok (State.loaded p image eofBits dataImage) :=
    instantiate_ok.mpr ⟨by rw [hlen, imageLength]; omega, hprog, hdata, rfl⟩
  refine ⟨_, hload, rfl, heof, fun before i after hsplit => ?_⟩
  have hwf : i.wf = true := wf_of_mem_sourceInstrs (haccepted ▸ hsplit ▸ List.mem_append_cons_self)
  have himage : LiesAt (State.loaded p image eofBits dataImage).progBit 0 (imageBits image) := fun k _ => by
    rw [State.progBit, instantiate_prog_read hload, Nat.zero_add]
  have hcode : codeBits accepted = codeBits before ++ (fieldsBits i.fields ++ codeBits after) := by
    rw [hsplit, codeBits_append, codeBits_cons]
  rw [hbits, hcode] at himage
  have hlies := himage.left.right.left
  rw [Nat.zero_add, codeBits_length] at hlies
  have hend : codeLength (before ++ [i]) = codeLength before + i.length := by
    rw [codeLength_append, codeLength_cons]
    rfl
  have hfit : codeLength before + i.length ≤ eofBits := by
    rw [heof, hsplit, codeLength_append, codeLength_cons]
    omega
  show decode _ eofBits (codeLength before) = .ok (i, codeLength (before ++ [i]))
  rw [hend]
  exact hlies.decode hwf hfit

/-- Digit groups joined are the groups with the separator between them. -/
theorem joinDigits_eq_intercalate (sep : List Char) : ∀ gs : List (List Char), joinDigits sep gs = sep.intercalate gs
  | [] => rfl
  | [g] => by simp [joinDigits]
  | g :: h :: gs => by
    rw [joinDigits, joinDigits_eq_intercalate sep (h :: gs), List.intercalate_cons_cons]
    exact nofun

theorem joinDigits_nil : ∀ gs : List (List Char), joinDigits [] gs = gs.flatten
  | [] => rfl
  | [g] => by simp [joinDigits]
  | g :: h :: gs => by simp [joinDigits, joinDigits_nil (h :: gs)]

/-- The digit groups of an instruction's fields. -/
def digitGroups (i : Instr) : List (List Char) := i.fields.map fun f => (fieldBits f.1 f.2).map bitDigit

theorem digitGroups_flatten (i : Instr) : (digitGroups i).flatten = (fieldsBits i.fields).map bitDigit := by
  simp [digitGroups, fieldsBits, List.flatMap_def, Function.comp_def]

theorem digitGroups_lengths (i : Instr) : (digitGroups i).map List.length = 4 :: operandWidths i.opcode := by
  simp [digitGroups, Instr.fields, ← operandFields_snd, Config.opcodeWidth]

/-- Settles O60: both lines join the same digit groups, which flatten to the encoding's digits. -/
theorem mirrorShowsTheEncoding : Obligations.MirrorShowsTheEncoding := by
  refine ⟨fun i bits henc => ?_, fun pretty image eofBits accepted errors => (List.flatMap_def ..)⟩
  obtain ⟨-, rfl⟩ := encode_ok henc
  refine ⟨?_, digitGroups i, ?_, digitGroups_flatten i, digitGroups_lengths i⟩
  · rw [← digitGroups_flatten, ← joinDigits_nil]
    rfl
  · rw [← joinDigits_eq_intercalate]
    rfl

end Sys2Proof.Machine
end

section
/-!
An encoding as one word (30_encoding.md R64, R65): the form in which the rules per instruction state it.
-/

namespace Sys2Proof

/-- Fields that fit, packed, are the bits of their word. -/
theorem fieldsBits_eq_fieldBits {fs : List (Nat × Nat)} (hfit : ∀ f ∈ fs, f.1 < 2 ^ f.2) :
    fieldsBits fs = fieldBits (fieldsWord fs) (fs.map Prod.snd).sum := by
  rw [← bitsValue_fieldsBits hfit, ← fieldsBits_length, fieldBits_bitsValue]

/-- An instruction encodes exactly when every operand fits, as the bits of its word. -/
theorem encode_eq_ok_iff {i : Instr} {bits : List Bit} :
    encode i = .ok bits ↔ i.wf = true ∧ bits = fieldBits (fieldsWord i.fields) i.length := by
  have packed (hwf : i.wf = true) : fieldsBits i.fields = fieldBits (fieldsWord i.fields) i.length := by
    rw [← encodedBits_length, fieldsBits_length]
    exact fieldsBits_eq_fieldBits fun f hf => (fields_fit hwf f hf).2
  constructor
  · intro henc
    obtain ⟨hwf, hbits⟩ := encode_ok henc
    exact ⟨hwf, hbits.trans (packed hwf)⟩
  · rintro ⟨hwf, rfl⟩
    rw [encode_of_wf hwf, packed hwf]

/-- The encoding of an instruction of format RA: opcode, register and address side by side (R64). -/
theorem encode_regAddr_iff {i : Instr} {r a : Nat} (hfields : i.operandFields = [(r, 2), (a, 4)]) {bits : List Bit} :
    encode i = .ok bits ↔ r < 4 ∧ a < 16 ∧ bits = fieldBits (i.opcode * 64 + r * 16 + a) 10 := by
  have hwf : i.wf = true ↔ r < 4 ∧ a < 16 := by simp [wf_iff_fits, hfields]
  have hword : fieldsWord i.fields = i.opcode * 64 + r * 16 + a := by
    simp [Instr.fields, hfields, fieldsWord, Nat.add_assoc]
  have hlen : i.length = 10 := by rw [length_eq_sum, ← operandFields_snd, hfields]; rfl
  rw [encode_eq_ok_iff, hwf, hword, hlen, and_assoc]

end Sys2Proof
end

section
/-!
What executing an instruction that completes, or whose first check fails, does to the state before it, and the rules of the
data-transfer family (40_data_transfer.md R100, R101).
-/

namespace Sys2Proof.Machine

section

variable {i : Instr} {s t : State}

/-- No effect writes the fault record (R32). -/
theorem Effect.fault_eq (h : Effect i s t) : t.fault = s.fault := by cases h <;> rfl

/-- Only HALT's effect changes the status (R130). -/
theorem Effect.status_eq (h : Effect i s t) (hi : i ≠ .halt) : t.status = s.status := by
  cases h with
  | halt => exact absurd rfl hi
  | _ => rfl

/-- The effect of an instruction other than HALT, in the state its dispatch has advanced, completes it (R123). -/
theorem Effect.completes (h : Effect i (s.advance i.length) t) (hi : i ≠ .halt) : Completes s t i.length where
  pc := h.pc_cases.resolve_right fun hhalt => hi hhalt.1
  status := h.status_eq hi
  eof := h.eof_eq
  prog := h.prog_eq
  fault := h.fault_eq

/-- A failing check, in the state the dispatch has advanced, is the fault executing the instruction enters (R154, R155). -/
theorem execFaults_of_raises {k : ErrorKind} {info : FaultInfo} (h : Raises i (s.advance i.length) k info) :
    ExecFaults i s i.length k k.code info :=
  ⟨_, exec_of_raises h, ⟨rfl, rfl, rfl, rfl, rfl, rfl, rfl, rfl, rfl⟩⟩

end

/-- Settles O1: MOVER's word, its two failing checks, and its effect, which sets one register. -/
theorem moverCopiesCellToRegister : Obligations.MoverCopiesCellToRegister := by
  intro r a s
  refine ⟨fun bits => by simpa [Instr.opcode] using encode_regAddr_iff (operandFields_eq (.mover r a)),
    fun hr => execFaults_of_raises (.moverRange hr),
    fun hr ha => execFaults_of_raises (.moverBounds hr ha), fun hr ha => ?_⟩
  have heff : Effect (.mover r a) (s.advance 10) _ := .mover hr ha
  exact ⟨_, exec_of_effect heff, setReg_same (s.advance 10) _ hr, heff.completes nofun,
    fun j hj => setReg_other (s.advance 10) _ hj, ⟨rfl, fun _ => rfl⟩, rfl, rfl⟩

/-- Settles O2: MOVEM's word, its three failing checks, and its effect, which stores to one cell. -/
theorem movemStoresRegister : Obligations.MovemStoresRegister := by
  intro r a s
  refine ⟨fun bits => encode_regAddr_iff (operandFields_eq (.movem r a)),
    fun hr => execFaults_of_raises (.movemRange hr), fun hu => execFaults_of_raises (.movemUnwritten hu),
    fun b hb ha => execFaults_of_raises (.movemBounds hb ha), fun b hb ha hwf => ?_⟩
  have heff : Effect (.movem r a) (s.advance 10) _ := .movem hb ha
  exact ⟨_, exec_of_effect heff, read_write_same hwf.1 a b, set_wf hwf ha, heff.completes nofun, fun _ => rfl,
    ⟨rfl, fun _ hne => read_write_other _ b hne⟩, rfl, rfl⟩

end Sys2Proof.Machine
end

section
/-!
The encoding of a two-register format as one word (30_encoding.md R64), as the rules of ADD and SUB state it.
-/

namespace Sys2Proof

/-- The encoding of an instruction of format RRA: opcode, two registers and address side by side (R64). -/
theorem encode_regRegAddr_iff {i : Instr} {r0 r1 a : Nat} (hfields : i.operandFields = [(r0, 2), (r1, 2), (a, 4)])
    {bits : List Bit} :
    encode i = .ok bits ↔
      r0 < 4 ∧ r1 < 4 ∧ a < 16 ∧ bits = fieldBits (i.opcode * 256 + r0 * 64 + r1 * 16 + a) 12 := by
  have hwf : i.wf = true ↔ r0 < 4 ∧ r1 < 4 ∧ a < 16 := by simp [wf_iff_fits, hfields]
  have hword : fieldsWord i.fields = i.opcode * 256 + r0 * 64 + r1 * 16 + a := by
    simp [Instr.fields, hfields, fieldsWord, Nat.add_assoc]
  have hlen : i.length = 12 := by rw [length_eq_sum, ← operandFields_snd, hfields]; rfl
  rw [encode_eq_ok_iff, hwf, hword, hlen, and_assoc, and_assoc]

end Sys2Proof
end

section
/-!
The arithmetic family (41_arithmetic.md R110 to R113): the wrapped sum and difference as integers, and the rules of ADD and SUB.
-/

namespace Sys2Proof.Machine

theorem add8_toNat (s d : Bits8) : (add8 s d).toNat = (s.toNat + d.toNat) % 256 := by
  rw [add8_eq, BitVec.toNat_add]

theorem sub8_toNat (s d : Bits8) : ((sub8 s d).toNat : Int) = ((s.toNat : Int) - d.toNat) % 256 := u8_bits8 _

/-- A pattern's signed and unsigned values agree modulo 256, so the signed sum has the same pattern. -/
theorem add8_eq_bits8_int8 (s d : Bits8) : add8 s d = bits8 (int8 s + int8 d) :=
  bits8_congr (by rw [Int.add_emod (int8 s), int8_emod, int8_emod])

/-- A pattern's signed and unsigned values agree modulo 256, so the signed difference has the same pattern. -/
theorem sub8_eq_bits8_int8 (s d : Bits8) : sub8 s d = bits8 (int8 s - int8 d) :=
  bits8_congr (by rw [Int.sub_emod (int8 s), int8_emod, int8_emod])

theorem int8_add8 (s d : Bits8) : int8 (add8 s d) = wrap8 (int8 s + int8 d) := by rw [add8_eq_bits8_int8, wrap8]

theorem int8_sub8 (s d : Bits8) : int8 (sub8 s d) = wrap8 (int8 s - int8 d) := by rw [sub8_eq_bits8_int8, wrap8]

/-- Wrapping keeps exactly the integers of the signed range. -/
theorem wrap8_eq_self_iff (n : Int) : wrap8 n = n ↔ -128 ≤ n ∧ n ≤ 127 := by
  rw [wrap8, int8_bits8]
  split <;> omega

/-- An integer at most 256 beyond the signed range, as every sum and difference of signed values is, is wrapped at most once. -/
theorem wrap8_of_ne {n : Int} (hlo : -384 ≤ n) (hhi : n < 384) (h : wrap8 n ≠ n) : wrap8 n = n + 256 ∨ wrap8 n = n - 256 := by
  rw [wrap8, int8_bits8] at *
  split at * <;> omega

/-- Settles O10: the sum and the difference of the unsigned values by definition, and of the signed ones by congruence modulo 256. -/
theorem arithmeticWraps : Obligations.ArithmeticWraps := fun s d =>
  ⟨by exact_mod_cast add8_toNat s d, add8_eq_bits8_int8 s d, sub8_toNat s d, sub8_eq_bits8_int8 s d⟩

/-- Settles O11: the signed results are wrapped, and the exact ones are near enough to the signed range to be wrapped at most once. -/
theorem signedViewOfArithmetic : Obligations.SignedViewOfArithmetic := by
  intro s d
  have hs := int8_range s
  have hd := int8_range d
  rw [int8_add8, int8_sub8]
  exact ⟨rfl, rfl, wrap8_eq_self_iff _, wrap8_eq_self_iff _, wrap8_of_ne (by omega) (by omega),
    wrap8_of_ne (by omega) (by omega)⟩

/-- An instruction other than HALT whose effect is to set one register completes with that register set and nothing else
changed but `pc`. -/
theorem exec_of_setReg_effect {i : Instr} {s : State} {r : Nat} {v : Bits8} (hr : r < 4) (hi : i ≠ .halt)
    (heff : Effect i (s.advance i.length) ((s.advance i.length).setReg r v)) :
    ∃ t, exec i s = .next t ∧ t.regs[r]? = some (.val v) ∧
      Completes s t i.length ∧ KeepsRegsBut r s t ∧ KeepsData s t ∧ t.trace = s.trace ∧ t.answers = s.answers :=
  ⟨_, exec_of_effect heff, setReg_same _ v hr, heff.completes hi, fun _ hj => setReg_other _ v hj, ⟨rfl, fun _ => rfl⟩,
    rfl, rfl⟩

/-- Settles O3: ADD's word, its four failing checks, and its effect, which sets the destination to the wrapped sum. -/
theorem addWritesWrappedSum : Obligations.AddWritesWrappedSum := by
  intro r0 r1 a s
  refine ⟨fun bits => encode_regRegAddr_iff (operandFields_eq (.add r0 r1 a)),
    fun h0 => execFaults_of_raises (.addRange0 h0), fun h0 h1 => execFaults_of_raises (.addRange1 h0 h1),
    fun h0 hu => execFaults_of_raises (.addUnwritten h0 hu), fun b h0 hb ha => execFaults_of_raises (.addBounds h0 hb ha),
    fun b h0 hb ha => ?_⟩
  have heff : Effect (.add r0 r1 a) (s.advance 12) _ := .add h0 hb ha
  obtain ⟨t, hexec, hreg, hframe⟩ := exec_of_setReg_effect (i := .add r0 r1 a) h0 nofun heff
  exact ⟨t, _, hexec, hreg, add8_toNat b _, hframe⟩

/-- Settles O4: SUB's word, its four failing checks, and its effect, which sets the destination to the wrapped difference. -/
theorem subWritesWrappedDifference : Obligations.SubWritesWrappedDifference := by
  intro r0 r1 a s
  refine ⟨fun bits => encode_regRegAddr_iff (operandFields_eq (.sub r0 r1 a)),
    fun h0 => execFaults_of_raises (.subRange0 h0), fun h0 h1 => execFaults_of_raises (.subRange1 h0 h1),
    fun h0 hu => execFaults_of_raises (.subUnwritten h0 hu), fun b h0 hb ha => execFaults_of_raises (.subBounds h0 hb ha),
    fun b h0 hb ha => ?_⟩
  have heff : Effect (.sub r0 r1 a) (s.advance 12) _ := .sub h0 hb ha
  obtain ⟨t, hexec, hreg, hframe⟩ := exec_of_setReg_effect (i := .sub r0 r1 a) h0 nofun heff
  exact ⟨t, _, hexec, hreg, sub8_toNat b _, hframe⟩

end Sys2Proof.Machine
end

section
/-!
The control rules (42_control.md): what the end check, HALT, a decoded instruction and the advance of `pc` do to a step, and that no
run returns to `Ready`.
-/

namespace Sys2Proof.Machine

/-- HALT's own effect overwrites the advance of `pc` and the status `Running` that dispatch gives (R130). -/
theorem exec_halt (s : State) : exec .halt s = .next { s with pc := s.eof, status := .halted } :=
  exec_of_effect (s := s) .halt

/-- Settles O5: the word by evaluation, and HALT's effect. -/
theorem haltStopsAtEof : Obligations.HaltStopsAtEof := ⟨rfl, exec_halt⟩

/-- Settles O16: the checks before dispatch pass, and what the decoder answers lies inside the program. -/
theorem stepRunsDecodedInstruction : Obligations.StepRunsDecodedInstruction :=
  fun _ _ _ hterm heof hsize hfetch => ⟨step_exec hterm (atEnd_eq_false.mpr ⟨heof, hsize⟩) hfetch, decode_wf hfetch⟩

/-- Settles O17: both statuses are terminal. -/
theorem terminalStepChangesNothing : Obligations.TerminalStepChangesNothing := by
  intro s hstatus
  have hterm : s.status.isTerminal = true := by
    rcases hstatus with hs | hs <;> simp [hs, Status.isTerminal]
  exact step_of_terminal hterm

/-- Settles O18: the transition of the end check, in either status that is not terminal. -/
theorem endCheckHalts : Obligations.EndCheckHalts := by
  intro s hstatus heof
  have hterm : s.status.isTerminal = false := by
    rcases hstatus with hs | hs <;> simp [hs, Status.isTerminal]
  exact (Transition.endCheck hterm (atEnd_eq_true.mpr (.inl heof))).step_eq

/-- Settles O24: HALT's effect, and for reachable states the invariant. -/
theorem haltedMeansPcAtEof : Obligations.HaltedMeansPcAtEof := by
  refine ⟨fun s t hexec => ?_, fun _ _ _ _ _ hreach => hreach.inv.halted⟩
  obtain rfl := Host.Outcome.next.inj ((exec_halt s).symm.trans hexec)
  rfl

section

variable {i : Instr} {n : Nat} {s t : State}

/-- What a step can do once an instruction is fetched: complete it, fault at one of its checks, or wait (R123). -/
theorem step_fetched_cases (hterm : s.status.isTerminal = false) (hend : s.atEnd = false) (hfetch : s.fetch = .ok (i, n))
    (hstep : step s = .next t) :
    Effect i (s.advance i.length) t ∨ (∃ k info, t = (s.advance i.length).enterFaulted k info s.pc) ∨ s.Waits ∧ t = s := by
  rw [step_exec hterm hend hfetch] at hstep
  rcases exec_cases i s with ⟨u, hexec, heff⟩ | ⟨k, info, hexec, -⟩ | ⟨hexec, hans, r, hr, rfl⟩
  · obtain rfl := Host.Outcome.next.inj (hexec.symm.trans hstep)
    exact .inl heff
  · exact .inr (.inl ⟨k, info, (Host.Outcome.next.inj (hexec.symm.trans hstep)).symm⟩)
  · exact .inr (.inr ⟨⟨hterm, hend, hans, r, n, hr, hfetch⟩, (Host.Outcome.next.inj (hexec.symm.trans hstep)).symm⟩)

/-- Completing an instruction leaves no core in `Ready` that dispatch has set to `Running` (R125). -/
theorem Effect.status_ne_ready (h : Effect i s t) (hs : s.status ≠ .ready) : t.status ≠ .ready := by
  cases h with
  | halt => exact nofun
  | _ => exact hs

/-- Only the transition of a waiting IN ends in `Ready` (R125, R143). -/
theorem Transition.waits_of_ready (h : Transition s t) (ht : t.status = .ready) : t = s ∧ s.Waits := by
  cases h with
  | terminal hterm => simp [ht, Status.isTerminal] at hterm
  | endCheck | decodeFault | dispatchFault => cases ht
  | complete _ _ _ heff => exact absurd ht (heff.status_ne_ready nofun)
  | wait hwait => exact ⟨rfl, hwait⟩

end

/-- Settles O20: a decode fault leaves `pc`; a fetched instruction completes or faults from the state its dispatch has advanced. -/
theorem advanceBeforeExecute : Obligations.AdvanceBeforeExecute := by
  intro s t hterm hend hstep
  refine ⟨fun e hfetch => ?_, fun i n hfetch => ?_⟩
  · obtain rfl := Host.Outcome.next.inj ((step_decodeFault hterm hend hfetch).symm.trans hstep)
    exact ⟨rfl, rfl⟩
  · obtain ⟨-, rfl, -⟩ := decode_wf hfetch
    refine ⟨rfl, ?_⟩
    rcases step_fetched_cases hterm hend hfetch hstep with heff | ⟨k, info, rfl⟩ | ⟨hwait, rfl⟩
    · exact ⟨fun hfaulted => absurd hfaulted (heff.status_ne_faulted nofun),
        fun _ hi _ => heff.pc_cases.resolve_right fun hhalt => hi hhalt.1⟩
    · exact ⟨fun _ => ⟨rfl, _, rfl, rfl⟩, fun hne => absurd rfl hne⟩
    · exact ⟨fun hfaulted => by simp [hfaulted, Status.isTerminal] at hterm, fun _ _ hnot => absurd hwait hnot⟩

/-- Settles O21: of the transitions of a step, only the wait can end in `Ready`. -/
theorem noStepReturnsToReady : Obligations.NoStepReturnsToReady :=
  fun _ _ hstep => (transition_of_step hstep).waits_of_ready

end Sys2Proof.Machine
end

section
/-!
The step as `Step(s, resp)` (42_control.md R120, 10_state.md R38): it always answers, what it takes from the input, and that beside
another input it goes the same way unless an IN reads the answer.
-/

namespace Sys2Proof.Machine

/-- The core has no other stop than a next state (60_exceptions.md R155). -/
theorem exists_step (s : State) : ∃ t, step s = .next t := by
  rcases step_cases s with ⟨-, hstep⟩ | ⟨-, -, hstep⟩ | ⟨-, -, e, -, hstep⟩ | ⟨-, -, i, n, -, hstep⟩
  · exact ⟨_, hstep⟩
  · exact ⟨_, hstep⟩
  · exact ⟨_, hstep⟩
  · rcases exec_cases i s with ⟨t, hexec, -⟩ | ⟨k, info, hexec, -⟩ | ⟨hexec, -⟩
    · exact ⟨_, hstep.trans hexec⟩
    · exact ⟨_, hstep.trans hexec⟩
    · exact ⟨_, hstep.trans hexec⟩

section

variable {i : Instr} {s t : State} {l : List HostAnswer}

/-- An effect takes nothing from the input, or is that of an IN, which takes the oldest answer. -/
theorem Effect.answers_cases (h : Effect i s t) :
    t.answers = s.answers ∨ s.answers ≠ [] ∧ t.answers = s.answers.tail ∧ ∃ r, i = .inp r := by
  cases h with
  | inpValue _ ha | inpRejected _ ha => exact .inr ⟨by simp [ha], rfl, _, rfl⟩
  | _ => exact .inl rfl

/-- A step takes nothing from the input, or is that of an IN, which takes the oldest answer. -/
theorem Transition.answers_cases (h : Transition s t) :
    t.answers = s.answers ∨
      s.answers ≠ [] ∧ t.answers = s.answers.tail ∧ s.status.isTerminal = false ∧ ∃ r n, s.fetch = .ok (.inp r, n) := by
  cases h with
  | complete hterm _ hfetch heff =>
    rcases heff.answers_cases with hsame | ⟨hne, htail, r, rfl⟩
    · exact .inl hsame
    · exact .inr ⟨hne, htail, hterm, r, _, hfetch⟩
  | _ => exact .inl rfl

/-- On the core an effect is the same beside every input with the same oldest answer, and beside any input if it is no IN's. -/
theorem Effect.withAnswers (h : Effect i s t) (hl : l.head? = s.answers.head? ∨ ∀ r, i ≠ .inp r) :
    ∃ l', Effect i (s.withAnswers l) (t.withAnswers l') := by
  by_cases hi : ∀ r, i ≠ .inp r
  · exact ⟨l, (effect_withAnswers h hi l).2⟩
  have hhead : l.head? = s.answers.head? := hl.resolve_right hi
  cases h with
  | inpValue hr ha =>
    obtain ⟨rest, rfl⟩ := List.head?_eq_some_iff.mp (hhead.trans (by rw [ha]; rfl))
    exact ⟨rest, .inpValue (s := s.withAnswers _) hr rfl⟩
  | inpRejected hr ha =>
    obtain ⟨rest, rfl⟩ := List.head?_eq_some_iff.mp (hhead.trans (by rw [ha]; rfl))
    exact ⟨rest, .inpRejected (s := s.withAnswers _) hr rfl⟩
  | _ => exact absurd nofun hi

/-- On the core a step goes the same way beside every input with the same oldest answer, and beside any input unless the
instruction at `pc` is an IN. -/
theorem Transition.withAnswers (h : Transition s t)
    (hl : l.head? = s.answers.head? ∨ ∀ r n, s.fetch ≠ .ok (.inp r, n)) :
    ∃ l', Transition (s.withAnswers l) (t.withAnswers l') := by
  cases h with
  | terminal hterm => exact ⟨l, .terminal hterm⟩
  | endCheck hterm hend => exact ⟨l, .endCheck (s := s.withAnswers l) hterm hend⟩
  | decodeFault hterm hend hfetch => exact ⟨l, .decodeFault (s := s.withAnswers l) hterm hend hfetch⟩
  | @complete hterm hend i _ hfetch heff =>
    have hi : l.head? = s.answers.head? ∨ ∀ r, i ≠ .inp r := hl.imp_right fun hno r hr => hno r _ (hr ▸ hfetch)
    obtain ⟨l', heff'⟩ := heff.withAnswers hi
    exact ⟨l', .complete (s := s.withAnswers l) hterm hend hfetch heff'⟩
  | dispatchFault hterm hend hfetch hraise =>
    exact ⟨l, .dispatchFault (s := s.withAnswers l) hterm hend hfetch (raises_withAnswers hraise l)⟩
  | wait hwait =>
    obtain ⟨hterm, hend, hans, r, n, hr, hfetch⟩ := hwait
    have hhead : l.head? = s.answers.head? := hl.resolve_right fun hno => hno r n hfetch
    have hl : l = [] := by simpa [hans] using hhead
    exact ⟨l, .wait ⟨hterm, hend, hl, r, n, hr, hfetch⟩⟩

/-- `Step(s, resp)` on the core goes as the step beside its input goes, if `resp` is the oldest answer or no IN reads it. -/
theorem Transition.core_step_eq (h : Transition s t) {resp : Option HostAnswer}
    (hresp : resp = s.answers.head? ∨ ∀ r n, s.fetch ≠ .ok (.inp r, n)) :
    s.toCoreState.step resp = .next t.toCoreState := by
  obtain ⟨l', htrans⟩ := h.withAnswers (l := resp.toList) (hresp.imp_left fun heq => by rw [Option.head?_toList, heq])
  exact congrArg coreOutcome htrans.step_eq

end

/-- Settles O19: the next state is that of the step's transition, which goes the same way beside the input `resp` stands for. -/
theorem stepAlwaysAnswers : Obligations.StepAlwaysAnswers := by
  intro s
  obtain ⟨t, hstep⟩ := exists_step s
  have htrans := transition_of_step hstep
  exact ⟨t.toCoreState, t.answers, hstep, htrans.core_step_eq (.inl rfl), htrans.answers_cases,
    fun hno _ => htrans.core_step_eq (.inr hno)⟩

end Sys2Proof.Machine
end

section
/-!
Termination (42_control.md R128): a step that neither ends the run nor waits brings `pc` at least 4 bits nearer to `eof`, so the steps
left are bounded by the bits left.
-/

namespace Sys2Proof.Machine

section

variable {s t : State}

/-- A step ends the run, advances `pc` by at least the shortest instruction within the program, or waits. -/
theorem Transition.progress (h : Transition s t) : t.Ended ∨ (s.pc + 4 ≤ t.pc ∧ t.pc ≤ t.eof) ∨ s.Waits ∧ t = s := by
  cases h with
  | terminal hterm => exact .inl hterm
  | endCheck | decodeFault | dispatchFault => exact .inl rfl
  | @complete _ _ i _ hfetch heff =>
    have hlen : 4 ≤ i.length := length_ge i
    have hend : s.pc + i.length ≤ s.eof := fetch_le_eof hfetch
    have heof : t.eof = s.eof := heff.eof_eq
    have hpc : t.pc = s.pc + i.length ∨ t.pc = s.eof := heff.pc_cases.imp_right And.right
    exact .inr (.inl (by omega))
  | wait hwait => exact .inr (.inr ⟨hwait, rfl⟩)

theorem run_succ_of_next {M : Host.Core} {x y : M.State} (hstep : M.step x = .next y) (k : Nat) :
    M.run (k + 1) x = M.run k y := by
  simp only [Host.Core.run, hstep]

theorem run_succ_of_step (hstep : step s = .next t) (k : Nat) : core.run (k + 1) s = core.run k t :=
  run_succ_of_next hstep k

/-- A run that has ended stays as it is (R121). -/
theorem run_of_ended (h : s.Ended) (k : Nat) : core.run k s = .next s := by
  induction k with
  | zero => rfl
  | succ k ih => rw [run_succ_of_step (step_of_terminal h), ih]

end

/-- With fewer than `4 * n` bits left, `n` steps end the run or an IN waits before: by induction on `n`, each step that neither ends
the run nor waits taking 4 of the bits. -/
theorem run_ends_or_waits (n : Nat) : ∀ s : State, s.eof - s.pc < 4 * n →
    (∃ u, core.run n s = .next u ∧ u.Ended) ∨ ∃ k u, k < n ∧ core.run k s = .next u ∧ u.Waits := by
  induction n with
  | zero => exact fun s hbits => absurd hbits (Nat.not_lt_zero _)
  | succ n ih =>
    intro s hbits
    obtain ⟨t, hstep⟩ := exists_step s
    have htrans := transition_of_step hstep
    rcases htrans.progress with hended | ⟨hadvance, hinside⟩ | ⟨hwait, -⟩
    · exact .inl ⟨t, by rw [run_succ_of_step hstep, run_of_ended hended], hended⟩
    · have heof : t.eof = s.eof := htrans.eof_eq
      rcases ih t (by omega) with ⟨u, hrun, hended⟩ | ⟨k, u, hk, hrun, hwait⟩
      · exact .inl ⟨u, by rw [run_succ_of_step hstep, hrun], hended⟩
      · exact .inr ⟨k + 1, u, Nat.succ_lt_succ hk, by rw [run_succ_of_step hstep, hrun], hwait⟩
    · exact .inr ⟨0, s, Nat.succ_pos n, rfl, hwait⟩

/-- Settles O23: the progress of one step, and the induction over the bits left; the decision D9 (log 5) is the waiting IN. -/
theorem runsEndUnlessAnInWaits : Obligations.RunsEndUnlessAnInWaits := by
  refine ⟨fun s t _ _ hstep => ?_, fun s _ => ?_⟩
  · exact (transition_of_step hstep).progress.imp_right (Or.imp_left And.left)
  · simpa only [Nat.lt_succ_iff] using run_ends_or_waits ((s.eof - s.pc) / 4 + 1) s (by omega)

end Sys2Proof.Machine
end

section
/-!
The encoding of a one-register format as one word (30_encoding.md R64), as the rules of IN and OUT state it.
-/

namespace Sys2Proof

/-- The encoding of an instruction of format R: opcode and register side by side (R64). -/
theorem encode_reg_iff {i : Instr} {r : Nat} (hfields : i.operandFields = [(r, 2)]) {bits : List Bit} :
    encode i = .ok bits ↔ r < 4 ∧ bits = fieldBits (i.opcode * 4 + r) 6 := by
  have hwf : i.wf = true ↔ r < 4 := by simp [wf_iff_fits, hfields]
  have hword : fieldsWord i.fields = i.opcode * 4 + r := by simp [Instr.fields, hfields, fieldsWord]
  have hlen : i.length = 6 := by rw [length_eq_sum, ← operandFields_snd, hfields]; rfl
  rw [encode_eq_ok_iff, hwf, hword, hlen]

end Sys2Proof
end

section
/-!
The input and output family (43_io.md R140, R142, R145): the rules of IN and OUT, and the order in which the trace grows.
-/

namespace Sys2Proof.Machine

/-- Settles O6: IN's word, its failing check, and its effect on either answer, which takes that answer and logs one event. -/
theorem inConsumesOneAnswer : Obligations.InConsumesOneAnswer := by
  intro r s
  refine ⟨fun bits => encode_reg_iff (operandFields_eq (.inp r)), fun hr => execFaults_of_raises (.inpRange hr),
    fun n rest hr hans => ?_, fun rest hr hans => ?_⟩
  · have heff : Effect (.inp r) (s.advance 6) _ := .inpValue hr hans
    exact ⟨_, exec_of_effect heff, setReg_same _ _ hr, rfl, congrArg List.tail hans, heff.completes nofun,
      fun _ hj => setReg_other (s.advance 6).dropAnswer _ hj, ⟨rfl, fun _ => rfl⟩⟩
  · have heff : Effect (.inp r) (s.advance 6) _ := .inpRejected hr hans
    exact ⟨_, exec_of_effect heff, rfl, congrArg List.tail hans, heff.completes nofun, fun _ => rfl, ⟨rfl, fun _ => rfl⟩⟩

/-- Settles O8: OUT's word, its two failing checks, and its effect, which logs the register's signed value. -/
theorem outEmitsSignedValue : Obligations.OutEmitsSignedValue := by
  intro r s
  refine ⟨fun bits => encode_reg_iff (operandFields_eq (.out r)), fun hr => execFaults_of_raises (.outRange hr),
    fun hu => execFaults_of_raises (.outUnwritten hu), fun b hb => ?_⟩
  have heff : Effect (.out r) (s.advance 6) _ := .out hb
  obtain ⟨hlo, hhi⟩ := int8_range b
  exact ⟨_, _, exec_of_effect heff, rfl, int8_eq_toInt b, hlo, hhi, heff.completes nofun, fun _ => rfl,
    ⟨rfl, fun _ => rfl⟩, rfl⟩

/-- An effect leaves the trace, or is that of an IN or an OUT, which appends one event (R145). -/
theorem Effect.trace_cases {i : Instr} {s t : State} (h : Effect i s t) :
    t.trace = s.trace ∨
      ∃ e, t.trace = s.trace ++ [e] ∧
        ((∃ r, i = .inp r ∧ ((∃ v, e = .inp v) ∨ e = .inRejected)) ∨ (∃ r v, i = .out r ∧ e = .out v)) := by
  cases h with
  | inpValue => exact .inr ⟨_, rfl, .inl ⟨_, rfl, .inl ⟨_, rfl⟩⟩⟩
  | inpRejected => exact .inr ⟨_, rfl, .inl ⟨_, rfl, .inr rfl⟩⟩
  | out => exact .inr ⟨_, rfl, .inr ⟨_, _, rfl, rfl⟩⟩
  | _ => exact .inl rfl

/-- Settles O15: of the transitions of a step, only completing the fetched instruction can add to the trace. -/
theorem traceGrowsInOrder : Obligations.TraceGrowsInOrder := by
  intro s t hstep
  cases transition_of_step hstep with
  | complete _ _ hfetch heff =>
    exact heff.trace_cases.imp_right fun ⟨e, htrace, hevent⟩ => ⟨e, _, _, htrace, hfetch, hevent⟩
  | _ => exact .inl rfl

end Sys2Proof.Machine
end

section
/-!
The step into `Faulted` (60_exceptions.md R154 to R158): what a step that enters it writes, which kinds each stage raises, and in
which order the checks of decode and of dispatch fail.
-/

namespace Sys2Proof.Machine

section

variable {i : Instr} {s t : State} {k : ErrorKind} {info : FaultInfo}

/-- A decode fault leaves `pc` at the start of the failing instruction (R154). -/
theorem entersFaulted_at_pc (s : State) (k : ErrorKind) (info : FaultInfo) :
    EntersFaulted s (s.enterFaulted k info s.pc) s.pc k k.code info :=
  ⟨rfl, rfl, rfl, rfl, rfl, rfl, rfl, rfl, rfl⟩

/-- A dispatch fault leaves `pc` past the failing instruction, which the record names by its start (R154). -/
theorem entersFaulted_past_pc (s : State) (len : Nat) (k : ErrorKind) (info : FaultInfo) :
    EntersFaulted s ((s.advance len).enterFaulted k info s.pc) (s.pc + len) k k.code info :=
  ⟨rfl, rfl, rfl, rfl, rfl, rfl, rfl, rfl, rfl⟩

/-- Decode raises two of the engine kinds (R151). -/
theorem decodeError_kind_cases (e : DecodeError) :
    DecodeError.kind e = .truncatedStream ∨ DecodeError.kind e = .unknownOpcode := by
  cases e with
  | truncated => exact .inl rfl
  | unknownOpcode => exact .inr rfl

/-- The handlers raise the other three (R151). -/
theorem Raises.kind_cases (h : Raises i s k info) :
    k = .invalidRegister ∨ k = .outOfBounds ∨ k = .unwrittenRegister := by
  cases h with
  | moverRange | movemRange | addRange0 | addRange1 | subRange0 | subRange1 | inpRange | outRange => exact .inl rfl
  | moverBounds | movemBounds | addBounds | subBounds => exact .inr (.inl rfl)
  | movemUnwritten | addUnwritten | subUnwritten | outUnwritten => exact .inr (.inr rfl)

/-- HALT has no check that can fail (R130, R151). -/
theorem Raises.ne_halt (h : Raises i s k info) : i ≠ .halt := by
  rintro rfl
  cases h

/-- Operands that fit their fields are registers and, in a data memory of 16 cells, cells: only a register not yet written is left to
fail on (R150, R158). -/
theorem Raises.unwritten_of_wf (h : Raises i s k info) (hwf : i.wf = true) (hsize : 16 ≤ s.data.size) :
    k = .unwrittenRegister := by
  cases h with
  | moverRange | movemRange | addRange0 | addRange1 | subRange0 | subRange1 | inpRange | outRange
  | moverBounds | movemBounds | addBounds | subBounds =>
    simp [Instr.wf] at hwf
    omega
  | movemUnwritten | addUnwritten | subUnwritten | outUnwritten => rfl

/-- The two ways into `Faulted` (R155): the bits at `pc` do not decode, or a check of the fetched instruction fails. -/
inductive FaultEntry (s : State) : State → Prop where
  | decode {e : DecodeError} (hfetch : s.fetch = .error e) :
      FaultEntry s (s.enterFaulted (DecodeError.kind e) (DecodeError.info e) s.pc)
  | dispatch {i : Instr} {k : ErrorKind} {info : FaultInfo} (hfetch : s.fetch = .ok (i, s.pc + i.length))
      (hraise : Raises i (s.advance i.length) k info) : FaultEntry s ((s.advance i.length).enterFaulted k info s.pc)

/-- A step enters `Faulted`, or it keeps the fault record and is in `Faulted` only if it stays there (R32, R155). -/
theorem Transition.fault_cases (h : Transition s t) :
    (t.fault = s.fault ∧ (t.status = .faulted → t = s)) ∨ FaultEntry s t := by
  cases h with
  | terminal | wait => exact .inl ⟨rfl, fun _ => rfl⟩
  | endCheck => exact .inl ⟨rfl, nofun⟩
  | complete _ _ _ heff => exact .inl ⟨heff.fault_eq, fun hfaulted => absurd hfaulted (heff.status_ne_faulted nofun)⟩
  | decodeFault _ _ hfetch => exact .inr (.decode hfetch)
  | dispatchFault _ _ hfetch hraise => exact .inr (.dispatch hfetch hraise)

/-- A step to `Faulted` from a state that is not terminal entered it. -/
theorem faultEntry_of_step (hterm : s.status.isTerminal = false) (hstep : step s = .next t) (hfaulted : t.status = .faulted) :
    FaultEntry s t := by
  refine (transition_of_step hstep).fault_cases.resolve_left fun ⟨_, hstay⟩ => ?_
  obtain rfl := hstay hfaulted
  simp [hfaulted, Status.isTerminal] at hterm

/-- Bits that do not decode fault a core that is in no terminal state and not at its end (R155). -/
theorem exists_step_of_decodeError {e : DecodeError} (hterm : s.status.isTerminal = false) (hend : s.atEnd = false)
    (hfetch : s.fetch = .error e) :
    ∃ t, step s = .next t ∧ EntersFaulted s t s.pc (DecodeError.kind e) (DecodeError.kind e).code (DecodeError.info e) :=
  ⟨_, step_decodeFault hterm hend hfetch, entersFaulted_at_pc s _ _⟩

/-- An instruction that faults, from a core that is not in `Faulted` yet, has a failing check (R155). -/
theorem raises_of_execFaults {len code : Nat} (h : ExecFaults i s len k code info) (hs : s.status ≠ .faulted) :
    Raises i (s.advance i.length) k info := by
  obtain ⟨t, hexec, henter⟩ := h
  have hfaulted : t.status = .faulted := henter.status
  have hfault : t.fault = some { kind := k, code := code, pc := s.pc, info := info } := henter.fault
  have next_eq {u : State} (hu : exec i s = .next u) : u = t := Host.Outcome.next.inj (hu.symm.trans hexec)
  rcases exec_cases i s with ⟨u, hu, heff⟩ | ⟨k', info', hu, hraise⟩ | ⟨hu, -⟩
  · obtain rfl := next_eq hu
    exact absurd hfaulted (heff.status_ne_faulted nofun)
  · obtain rfl := next_eq hu
    cases hfault
    exact hraise
  · obtain rfl := next_eq hu
    exact absurd hfaulted hs

end

/-- Settles O25: each clause is one of the decoder's errors, in the order in which it looks for them. -/
theorem decodeFaultPriority : Obligations.DecodeFaultPriority := by
  intro s hterm heof hsize
  have hend : s.atEnd = false := atEnd_eq_false.mpr ⟨heof, hsize⟩
  refine ⟨fun hbits => exists_step_of_decodeError hterm hend (decode_of_no_opcode hbits), ?_, ?_⟩
  · rintro _ rfl h4 hop
    exact exists_step_of_decodeError hterm hend (decode_of_illegal h4 hop)
  · rintro _ rfl h4 hop hlen
    exact exists_step_of_decodeError hterm hend (decode_of_truncated h4 hop hlen)

/-- Settles O34: each clause is a check of the instruction with those before it passed, and well-formed operands pass all but one. -/
theorem dispatchFaultPriority : Obligations.DispatchFaultPriority := by
  refine ⟨fun s r a => ⟨fun hr => ⟨?_, ?_, ?_, ?_⟩, fun hr ha => ?_, fun hu => ⟨?_, ?_⟩, fun b hb ha => ?_⟩,
    fun s r0 r1 a i hi => ?_, fun s i len code kind info hs hwf hsize hfault => ?_⟩
  · exact execFaults_of_raises (.moverRange hr)
  · exact execFaults_of_raises (.movemRange hr)
  · exact execFaults_of_raises (.inpRange hr)
  · exact execFaults_of_raises (.outRange hr)
  · exact execFaults_of_raises (.moverBounds hr ha)
  · exact execFaults_of_raises (.movemUnwritten hu)
  · exact execFaults_of_raises (.outUnwritten hu)
  · exact execFaults_of_raises (.movemBounds hb ha)
  · rcases hi with rfl | rfl
    · obtain ⟨-, range0, range1, unwritten, bounds, -⟩ := addWritesWrappedSum r0 r1 a s
      exact ⟨range0, range1, unwritten, bounds⟩
    · obtain ⟨-, range0, range1, unwritten, bounds, -⟩ := subWritesWrappedDifference r0 r1 a s
      exact ⟨range0, range1, unwritten, bounds⟩
  · exact (raises_of_execFaults hfault hs).unwritten_of_wf hwf hsize

/-- Settles O35: a decode fault enters from the state before, a dispatch fault from the state whose `pc` has advanced. -/
theorem faultEntryChangesNothingElse : Obligations.FaultEntryChangesNothingElse := by
  intro s t hterm hstep hfaulted
  cases faultEntry_of_step hterm hstep hfaulted with
  | @decode e hfetch =>
    obtain ⟨hengine, hinfo⟩ := decodeError_engine e
    exact ⟨_, _, hengine, hinfo, .inl ⟨⟨e, hfetch⟩, entersFaulted_at_pc s _ _⟩⟩
  | @dispatch i _ _ hfetch hraise =>
    obtain ⟨hengine, hinfo⟩ := raises_engine hraise
    exact ⟨_, _, hengine, hinfo, .inr ⟨i, _, hfetch, entersFaulted_past_pc s _ _ _⟩⟩

/-- Settles O36: the kinds of a decode error, and those of a failing check, of which HALT has none. -/
theorem faultKindsByStage : Obligations.FaultKindsByStage := by
  intro s t hterm hstep hfaulted
  cases faultEntry_of_step hterm hstep hfaulted with
  | @decode e hfetch =>
    refine ⟨_, rfl, fun _ => decodeError_kind_cases e, fun i n hok => ?_⟩
    cases hfetch.symm.trans hok
  | dispatch hfetch hraise =>
    refine ⟨_, rfl, fun ⟨e, herror⟩ => ?_, fun i n hok => ?_⟩
    · cases hfetch.symm.trans herror
    · cases hfetch.symm.trans hok
      exact ⟨hraise.ne_halt, hraise.kind_cases⟩

end Sys2Proof.Machine
end

section
/-!
The fault kinds a load can reach (60_exceptions.md R150, fourth column), and the codes of the taxonomy (R150, the spec's decisions D10
and D11).
-/

namespace Sys2Proof.Machine

section

variable {p : Config.Params} {image : List Bits8} {eofBits : Nat} {dataImage : List Bits8} {s : State}

/-- The data memory keeps the size of the load (R30). -/
theorem Reachable.dataSize_eq (h : Reachable p image eofBits dataImage s) : s.data.size = p.dataSize := by
  induction h with
  | load _ hload =>
    obtain ⟨-, -, -, rfl⟩ := instantiate_ok.mp hload
    rfl
  | step _ hstep ih => exact (transition_of_step hstep).dataSize_eq.trans ih
  | deliver _ _ ih => exact ih

/-- Where every address field names a cell, a core faults only at decode or at a register not yet written: by induction on how the
state was reached, since what a step decodes is well formed. -/
theorem Reachable.fault_kind_cases (h : Reachable p image eofBits dataImage s) (hp : 16 ≤ p.dataSize) :
    ∀ f, s.fault = some f → f.kind = .truncatedStream ∨ f.kind = .unknownOpcode ∨ f.kind = .unwrittenRegister := by
  induction h with
  | load _ hload =>
    obtain ⟨-, -, -, rfl⟩ := instantiate_ok.mp hload
    exact nofun
  | @step s t hs hstep ih =>
    rcases (transition_of_step hstep).fault_cases with ⟨hkeep, -⟩ | hentry
    · rwa [hkeep]
    · cases hentry with
      | @decode e _ =>
        rintro _ ⟨⟩
        exact (decodeError_kind_cases e).imp_right .inl
      | dispatch hfetch hraise =>
        rintro _ ⟨⟩
        obtain ⟨hwf, -⟩ := decode_wf hfetch
        have hsize : 16 ≤ s.data.size := hs.dataSize_eq ▸ hp
        exact .inr (.inr (hraise.unwritten_of_wf hwf hsize))
  | deliver _ _ ih => exact ih

end

/-- Settles O49: the reference data memory has 256 cells. -/
theorem reachableFaultKinds : Obligations.ReachableFaultKinds :=
  fun _ _ _ _ f hreach hf => hreach.fault_kind_cases (by decide) f hf

/-- The error kinds of R150, in the order of its table. -/
def errorKinds : List ErrorKind :=
  [.truncatedStream, .unknownOpcode, .invalidRegister, .outOfBounds, .unwrittenRegister, .encoding, .unknownMnemonic,
    .operandCount, .operandKind, .load]

theorem mem_errorKinds (k : ErrorKind) : k ∈ errorKinds := by cases k <;> decide

/-- No two rows of R150 have the same code. -/
theorem errorKind_code_injective : Function.Injective ErrorKind.code := by
  have codes_nodup : (errorKinds.map ErrorKind.code).Nodup := by decide
  exact fun k l hcode => List.inj_on_of_nodup_map codes_nodup (mem_errorKinds k) (mem_errorKinds l) hcode

/-- A read fails with `TruncatedStreamError` exactly where it counts the bits it needs and those it has (R62). -/
theorem readError_truncated_iff (e : ReadError) :
    (ReadError.kind e = some .truncatedStream ∧ ReadError.code e = some 1) ↔
      ∃ need available, e = .truncated need available ∧ ReadError.info e = some (.bits need available) := by
  cases e with
  | truncated need available => exact ⟨fun _ => ⟨need, available, rfl, rfl⟩, fun _ => ⟨rfl, rfl⟩⟩
  | badWidth => exact ⟨nofun, nofun⟩

/-- A write or an encoding fails with `EncodingError` exactly where it names a value and a width (R60, R65). -/
theorem writeError_encoding_iff (e : WriteError) :
    (WriteError.kind e = some .encoding ∧ WriteError.code e = some 16) ↔ ∃ v w, e = .encoding v w := by
  cases e with
  | encoding v w => exact ⟨fun _ => ⟨v, w, rfl⟩, fun _ => ⟨rfl, rfl⟩⟩
  | operandCount | negative | badWidth => exact ⟨nofun, nofun⟩

/-- An encoding fails with `OperandCountError` exactly where it names two counts (R65). -/
theorem writeError_operandCount_iff (e : WriteError) :
    (WriteError.kind e = some .operandCount ∧ WriteError.code e = some 18) ↔ ∃ n m, e = .operandCount n m := by
  cases e with
  | operandCount n m => exact ⟨fun _ => ⟨n, m, rfl⟩, fun _ => ⟨rfl, rfl⟩⟩
  | encoding | negative | badWidth => exact ⟨nofun, nofun⟩

/-- The assembler reports a failed encoding with the encoder's own kind (R85). -/
theorem writeErrorReport_kind {e : WriteError} {k : ErrorKind} (h : WriteError.kind e = some k) : (writeErrorReport e).kind = k := by
  cases e with
  | encoding | operandCount => exact Option.some.inj h
  | negative | badWidth => cases h

/-- A refused load is a `LoadError` whatever its reason (R182). -/
theorem loadReason_kind (reason : LoadReason) : reason.kind = .load := by cases reason <;> rfl

/-- Settles O38: the codes are read off, and each kind of error is taken by its forms. -/
theorem codesAreDistinct : Obligations.CodesAreDistinct := by
  refine ⟨rfl, rfl, rfl, fun _ _ hcode => errorKind_code_injective hcode, fun e => ?_, readError_truncated_iff,
    fun e => ⟨writeError_encoding_iff e, writeError_operandCount_iff e⟩, fun _ _ => writeErrorReport_kind, fun n info => ?_,
    fun reason => ⟨loadReason_kind reason, congrArg ErrorKind.code (loadReason_kind reason)⟩⟩
  · cases e with
    | truncated need available => exact .inl ⟨need, available, rfl, rfl, rfl⟩
    | unknownOpcode op => exact .inr ⟨op, rfl, rfl, rfl⟩
  · cases info with
    | encoding v w => exact .inl ⟨v, w, rfl, rfl, rfl⟩
    | mnemonic name => exact .inr (.inl ⟨name, rfl, rfl, rfl⟩)
    | count expected given => exact .inr (.inr (.inl ⟨expected, given, rfl, rfl, rfl⟩))
    | operand text position => exact .inr (.inr (.inr ⟨text, position, rfl, rfl, rfl⟩))

end Sys2Proof.Machine
end

section
/-!
Instantiation (70_reset_and_hazards.md R180 to R184): which loads are refused and why, and the state of an accepted one.
-/

namespace Sys2Proof.Machine

section

variable {p : Config.Params} {image : List Bits8} {eofBits : Nat} {dataImage : List Bits8}

/-- The reason of a refused load names a condition of R182 that holds. -/
theorem instantiate_error_cases {reason : LoadReason} (h : instantiate p image eofBits dataImage = .error reason) :
    (reason = .eofBeyondImage ∧ 8 * image.length < eofBits) ∨ (reason = .imageTooLarge ∧ p.progSize < 8 * image.length) ∨
      (reason = .dataImageSize ∧ dataImage.length ≠ p.dataSize) := by
  unfold instantiate loadCheck at h
  split_ifs at h with hshort hlarge hdata
  · exact .inl ⟨(Except.error.inj h).symm, hshort⟩
  · exact .inr (.inl ⟨(Except.error.inj h).symm, hlarge⟩)
  · exact .inr (.inr ⟨(Except.error.inj h).symm, hdata⟩)

/-- A container that cannot be taken apart is refused for that, whatever the data image. -/
theorem instantiateContainer_of_parse_error {container : List Bits8} {reason : LoadReason}
    (h : parseContainer container = .error reason) : instantiateContainer p container dataImage = .error reason := by
  rw [instantiateContainer, h]

/-- Data memory of an accepted load holds the bytes of the data image (R183, D16). -/
theorem instantiate_data_read {s : State} (h : instantiate p image eofBits dataImage = .ok s) (a : Nat) :
    s.data.cells.read a = dataImage.getD a 0 := by
  obtain ⟨-, -, -, rfl⟩ := instantiate_ok.mp h
  rw [loaded_data, read_ofList, if_neg (Nat.not_lt_zero a), Nat.sub_zero]

end

/-- A container whose image is not of the length its count bytes call for does not parse (R76). -/
theorem parseContainer_of_length_ne {hi lo : Bits8} {bytes : List Bits8}
    (h : bytes.length ≠ imageLength (256 * hi.toNat + lo.toNat)) : parseContainer (hi :: lo :: bytes) = .error .containerLength := by
  rw [parseContainer, if_neg h]

/-- A container without both count bytes does not parse (R76). -/
theorem parseContainer_of_short {container : List Bits8} (h : container.length < 2) :
    parseContainer container = .error .containerLength := by
  match container with
  | [] | [_] => rfl
  | _ :: _ :: bytes => exact absurd h (by simp)

/-- Settles O39: a load passes the checks or fails one it names, and a container is taken apart before any of them. -/
theorem loadRefusals : Obligations.LoadRefusals := by
  intro p image eofBits dataImage
  refine ⟨⟨fun ⟨s, hload⟩ => ?_, fun ⟨heof, himage, hdata⟩ => ⟨_, instantiate_ok.mpr ⟨heof, himage, hdata, rfl⟩⟩⟩,
    fun _ => instantiate_error_cases, fun _ _ _ hlen => ?_, fun _ hshort => ?_,
    fun reason => ⟨loadReason_kind reason, congrArg ErrorKind.code (loadReason_kind reason)⟩⟩
  · obtain ⟨heof, himage, hdata, -⟩ := instantiate_ok.mp hload
    exact ⟨heof, himage, hdata⟩
  · exact instantiateContainer_of_parse_error (parseContainer_of_length_ne hlen)
  · exact instantiateContainer_of_parse_error (parseContainer_of_short hshort)

/-- Settles O40: the state of an accepted load is `State.loaded`, and its memories read as the two images. -/
theorem resetValues : Obligations.ResetValues := by
  intro p image eofBits dataImage s hload
  have hprog := instantiate_prog_read hload
  have hdata := instantiate_data_read hload
  obtain ⟨-, -, -, rfl⟩ := instantiate_ok.mp hload
  exact ⟨unwritten_regs, rfl, rfl, rfl, rfl, rfl, rfl, rfl, hprog, fun a _ => hdata a⟩

end Sys2Proof.Machine
end

section
/-!
The input port (43_io.md R141, R143): the integer an IN stores, and the IN that waits until the host has answered.
-/

namespace Sys2Proof.Machine

/-- Settles O9: the two views of the stored pattern; the wrap-around keeps just the integers in the signed range. -/
theorem inValueKeepsLowEightBits : Obligations.InValueKeepsLowEightBits :=
  ⟨u8_bits8, fun n hlo hhi => (wrap8_eq_self_iff n).mpr ⟨hlo, hhi⟩, by decide, by decide⟩

/-- Whatever the oldest answer is, an IN into an existing register completes and takes it (R140). -/
theorem exists_effect_inp {r : Nat} {s : State} {ans : HostAnswer} {rest : List HostAnswer} (hr : r < 4)
    (hans : s.answers = ans :: rest) : ∃ t, Effect (.inp r) s t ∧ t.answers = rest := by
  cases ans with
  | value n => exact ⟨_, .inpValue hr hans, congrArg List.tail hans⟩
  | parseFailure => exact ⟨_, .inpRejected hr hans, congrArg List.tail hans⟩

/-- The step of a waiting core that has been answered completes its IN and leaves no answer (R143). -/
theorem step_deliver_of_waits {s : State} (h : s.Waits) (ans : HostAnswer) :
    ∃ t, step (s.deliver ans) = .next t ∧ t.answers = [] ∧ Completes (s.deliver ans) t 6 := by
  obtain ⟨hterm, hend, hans, r, n, hr, hfetch⟩ := h
  have hqueue : ((s.deliver ans).advance 6).answers = [ans] := by simp [hans]
  obtain ⟨t, heff, hempty⟩ := exists_effect_inp hr hqueue
  have hstep : step (s.deliver ans) = exec (.inp r) (s.deliver ans) := step_exec hterm hend hfetch
  exact ⟨t, hstep.trans (exec_of_effect heff), hempty, heff.completes nofun⟩

/-- Settles O7: a waiting core stays as it is, and answered it completes its IN; a delivery is its own record update. -/
theorem inWaitsForItsAnswer : Obligations.InWaitsForItsAnswer := by
  refine ⟨fun _ hwait => step_of_waits hwait, fun s ans hwait => ?_, fun _ _ => rfl⟩
  obtain ⟨t, hstep, hempty, hdone⟩ := step_deliver_of_waits hwait ans
  exact ⟨t, hstep, hempty, hdone.pc, hdone.status⟩

end Sys2Proof.Machine
end

section
/-!
The reset state as a load (70_reset_and_hazards.md R180, R184): the empty image beside data cells that are all zero.
-/

namespace Sys2Proof.Machine

/-- Zeros leave nothing to list in the canonical form. -/
theorem ofList_replicate_zero {w : Nat} (n start : Nat) : Memory.ofList start (List.replicate n (0 : BitVec w)) = [] := by
  induction n generalizing start with
  | zero => rfl
  | succ n ih => rw [List.replicate_succ, Memory.ofList, if_pos rfl, ih]

/-- The load of no program and of zeros gives the reset state (log 2, log 3). -/
theorem loaded_empty_eq_reset : State.loaded Config.Params.reference [] 0 (List.replicate 256 0) = State.reset := by
  rw [State.loaded, ofList_replicate_zero]
  rfl

/-- Settles O43: the load checks pass, and a core whose program is empty is at its end before the first instruction. -/
theorem resetIsTheEmptyLoad : Obligations.ResetIsTheEmptyLoad :=
  ⟨instantiate_ok.mpr ⟨le_rfl, Nat.zero_le _, List.length_replicate, loaded_empty_eq_reset.symm⟩,
    _, endCheckHalts State.reset (.inl rfl) le_rfl, ⟨rfl, rfl⟩, rfl⟩

end Sys2Proof.Machine
end
